-- ==== Sys2Proof/Word.lean ====
section
/-! DEFINITION. The unit of storage and of both byte streams (rule R26): the byte. All quantities of the
block are unsigned (00_scope.md section 5, rule R65). -/

namespace Sys2Proof

/-- A byte: 8 bits, unsigned (rule R26). -/
abbrev Byte := BitVec 8

end Sys2Proof
end

