-- ==== Sys2Proof/Config.lean ====
section
/-! DEFINITION. What is fixed for the machine: the constants the document fixes (rule R6), the configuration
record `Cfg` with its well-formedness (rules R7, R8), the named properties of the checksum (rule R9), the
default widths, and the free values. `Cfg` is no state (rules R22, R38): every function of the codec takes it
as an argument. The default instance, whose checksum is defined in Machine/Checksum.lean, is `Machine.cfg`. -/

namespace Sys2Proof

/-- The configuration record of rule R7. -/
structure Cfg where
  START : Byte
  END : Byte
  ESC : Byte
  MASK : Byte
  CK : Byte → Byte → Byte → Byte
  W_CMD_IN : Nat
  W_DATA_IN : Nat
  TS_W : Nat
  CNT_W : Nat

/-- The three reserved byte values (rule R33). -/
def Cfg.markers (c : Cfg) : List Byte := [c.START, c.END, c.ESC]

/-- `CFG_WF` of rule R8: (a) the markers are pairwise distinct, (b) no transformed marker is a marker,
(c) the widths. -/
abbrev Cfg.WF (c : Cfg) : Prop :=
  (c.START ≠ c.END ∧ c.START ≠ c.ESC ∧ c.END ≠ c.ESC) ∧
  (∀ m ∈ c.markers, m ^^^ c.MASK ∉ c.markers) ∧
  (4 ≤ c.W_CMD_IN ∧ 18 ≤ c.W_DATA_IN ∧ 1 ≤ c.TS_W ∧ 1 ≤ c.CNT_W)

/-- The 4-byte body as one 32-bit number, first byte first (rule R42). -/
def body32 (b0 b1 b2 ck : Byte) : BitVec 32 := b0 ++ b1 ++ b2 ++ ck

/-- The body `[b0, b1, b2, ck]` passes the check of rule R83. -/
def Cfg.bodyChecks (c : Cfg) (w : BitVec 32) : Prop :=
  c.CK (w.extractLsb' 24 8) (w.extractLsb' 16 8) (w.extractLsb' 8 8) = w.extractLsb' 0 8

/-- `CK_SBE` of rule R9: every single-bit error of a checked 4-byte body is detected. -/
def Cfg.CkSbe (c : Cfg) : Prop :=
  ∀ (b0 b1 b2 : Byte) (k : Fin 32),
    ¬ c.bodyChecks (body32 b0 b1 b2 (c.CK b0 b1 b2) ^^^ BitVec.twoPow 32 k)

/-! Constants the document fixes (rule R6). -/

/-- The largest `command`, `2^CMD_W - 1` with `CMD_W = 4`. -/
abbrev Config.CMD_MAX : Nat := 15
/-- The largest `data`, `2^DATA_W - 1` with `DATA_W = 18` (90_conflicts.md C8). -/
abbrev Config.DATA_MAX : Nat := 262143
/-- The body length before stuffing, and the only buffer length a close accepts (rule R6). -/
abbrev Config.BODY_BYTES : Nat := 4

/-! The default widths (rule R7; decisions D4, D5, D6). -/

abbrev Config.W_CMD_IN : Nat := 8
abbrev Config.W_DATA_IN : Nat := 32
abbrev Config.TS_W : Nat := 64
abbrev Config.CNT_W : Nat := 32

/-- FREE VALUE (log entry 4). The bytes that `enc_word` holds after a `RESET`, which rules R23 and R125
leave unspecified: the `n`-th unspecified byte drawn. It has no body, so nothing can be proved of it. -/
opaque Config.unspecByte : Nat → Byte

end Sys2Proof
end

