-- ==== Sys2Proof/Machine/Checksum.lean ====
section
/-! DEFINITION. The default checksum (rule R57: CRC-8, polynomial 0x07, initial value 0, most significant bit
first, no reflection, no final XOR) and with it the default configuration `cfg` of rule R7. -/

namespace Sys2Proof.Machine

/-- One round of `CRC8_UPDATE` (rule R57): shift left, reduce by `0x07` when the top bit falls out. -/
def crcShift (crc : Byte) : Byte :=
  if crc.msb then (crc <<< 1) ^^^ 0x07#8 else crc <<< 1

/-- `n` rounds of `CRC8_UPDATE`. -/
def crcRounds : Nat → Byte → Byte
  | 0, crc => crc
  | n + 1, crc => crcRounds n (crcShift crc)

/-- `CRC8_UPDATE(crc, byte)` of rule R57. -/
def crc8Update (crc byte : Byte) : Byte := crcRounds 8 (crc ^^^ byte)

/-- The default `CK` of rule R57, over `b0`, `b1`, `b2` in that order. -/
def crc8 (b0 b1 b2 : Byte) : Byte := crc8Update (crc8Update (crc8Update 0x00#8 b0) b1) b2

/-- The default configuration (rule R7; decisions D1 to D6); the machine is this instance (log entry 2). Reducible, so
that its widths and the numerals of `Config` are the same to every tactic. -/
@[reducible] def cfg : Cfg where
  START := 0x7E#8
  END := 0x7F#8
  ESC := 0x7D#8
  MASK := 0x20#8
  CK := crc8
  W_CMD_IN := Config.W_CMD_IN
  W_DATA_IN := Config.W_DATA_IN
  TS_W := Config.TS_W
  CNT_W := Config.CNT_W

/-- The default configuration has `CFG_WF` (rule R8), as every operation of the block asks of its configuration. -/
theorem cfg_wf : cfg.WF := by decide

end Sys2Proof.Machine
end

