-- ==== Sys2Proof/Machine/Flags.lean ====
section
/-! DEFINITION. The block has no condition codes (rule R22). What plays the part of flags: the class of a byte
(rules R33, R43), the range test of a request (rule R55), the length test of the close (rule R82), and the
arithmetic with carries of rule R65: the saturating step of `enc_idx` and `dec_len` and of the two counters. -/

namespace Sys2Proof.Machine

/-- The class of a byte (format RXBYTE, rule R43). -/
inductive ByteClass where
  | startMarker
  | endMarker
  | escMarker
  | literal
deriving DecidableEq, Repr

/-- The class of a byte by value alone, `START` tested first (rule R43). -/
def classify (c : Cfg) (b : Byte) : ByteClass :=
  if b = c.START then .startMarker
  else if b = c.END then .endMarker
  else if b = c.ESC then .escMarker
  else .literal

/-- The marker test of rules R58 and R62. -/
def isMarker (c : Cfg) (v : Byte) : Bool := v == c.START || v == c.END || v == c.ESC

/-- `t(v) = v XOR MASK`, its own inverse (rule R44). -/
def xform (c : Cfg) (v : Byte) : Byte := v ^^^ c.MASK

/-- The range test of rule R55, over mathematical integers; it is one condition for both operands (R112). -/
def inRange (command data : Int) : Bool :=
  decide (0 ≤ command ∧ command ≤ Config.CMD_MAX ∧ 0 ≤ data ∧ data ≤ Config.DATA_MAX)

/-- The step of a 0..5 index: plus one, never beyond 5 (rules R13, R15, R65). -/
def idxSucc (i : Fin 6) : Fin 6 := if h : i.val < 5 then ⟨i.val + 1, by omega⟩ else 5

/-- A counter's step: plus one, saturating at `2^w - 1` (rule R18). -/
def satInc {w : Nat} (x : BitVec w) : BitVec w :=
  if x = BitVec.allOnes w then x else x + 1#w

/-- The length test of the close (rule R82): it fails unless exactly four bytes were appended. -/
def lenFails (n : Fin 6) : Bool := n.val != Config.BODY_BYTES

end Sys2Proof.Machine
end

