-- ==== Sys2Proof/Syntax.lean ====
section
/-! DEFINITION. The operations: `Instr`, one constructor per row of opcode_table.json (rules R51, R52), and the
words they come in at the block's boundary. The spec gives an operation no bit pattern that selects it: an
operation is selected by the port its operands come through (rules R20, R21), a `FEED` case by the pair (class of
the byte, `dec_state`) (rule R43), a stage by the sub-block it is (rule R51). `Lane` names these; log entry 12. -/

namespace Sys2Proof

/-- The three states of the decoder (rule R14); `0b11` cannot be written. -/
inductive DecState where
  | idle
  | accumulating
  | escaped
deriving DecidableEq, Repr

/-- The stages of rule R51 that are sub-blocks and not operations of a port. -/
inductive Stage where
  | frameNew
  | pack
  | cksum
  | stuff
  | delimit
  | enc
  | append
  | closeLen
  | closeCk
  | unpack
deriving DecidableEq, Repr

/-- Where a word is offered. -/
inductive Lane where
  /-- `rst` sampled high (rule R125); no operand. -/
  | rst
  /-- The request port (rule R20), format ENCREQ. -/
  | encReq
  /-- The TX sink is ready for a byte (rule R20); no operand. -/
  | txReady
  /-- The RX port (rule R21), format RXBYTE: with `dec_state` it names one of the ten cases (rule R52). -/
  | rx
  /-- The same port, the operation `FEED` itself with its own dispatch (rule R70). -/
  | feed
  /-- A stage's own operands (rule R51). -/
  | stage (k : Stage)
deriving DecidableEq, Repr

/-- A word at the boundary: where it is offered, its bytes, and the value of the `now` input (rule R21). -/
structure OpWord where
  lane : Lane
  bytes : List Byte
  now : BitVec Config.TS_W
deriving DecidableEq, Repr

/-- The rows of opcode_table.json, in the table's order. -/
inductive Instr where
  /-- `FRAME.NEW`, rule R55. -/
  | frameNew (cmd : BitVec Config.W_CMD_IN) (data : BitVec Config.W_DATA_IN)
  /-- `PACK`, rule R56. -/
  | pack (command : BitVec 4) (data : BitVec 18)
  /-- `CKSUM`, rule R57. -/
  | cksum (b0 b1 b2 : Byte)
  /-- `STUFF`, rule R58. -/
  | stuff (body : List Byte)
  /-- `DELIMIT`, rule R59. -/
  | delimit (sbody : List Byte)
  /-- `ENC`, rule R60. -/
  | enc (cmd : BitVec Config.W_CMD_IN) (data : BitVec Config.W_DATA_IN)
  /-- `ENC.ACCEPT`, rule R61. -/
  | encAccept (cmd : BitVec Config.W_CMD_IN) (data : BitVec Config.W_DATA_IN)
  /-- `ENC.EMIT`, rule R62. -/
  | encEmit
  /-- `FEED`, rule R70. -/
  | feed (b : Byte) (now : BitVec Config.TS_W)
  /-- `FEED.START`, rule R71. -/
  | feedStart
  /-- `FEED.END.IDLE`, rule R72. -/
  | feedEndIdle
  /-- `FEED.ESC.IDLE`, rule R73. -/
  | feedEscIdle
  /-- `FEED.LIT.IDLE`, rule R74. -/
  | feedLitIdle (b : Byte)
  /-- `FEED.END.ACC`, rule R75; `now` is the input the close stamps (rule R84). -/
  | feedEndAcc (now : BitVec Config.TS_W)
  /-- `FEED.ESC.ACC`, rule R76. -/
  | feedEscAcc
  /-- `FEED.LIT.ACC`, rule R77. -/
  | feedLitAcc (b : Byte)
  /-- `FEED.END.ESCD`, rule R78. -/
  | feedEndEscd
  /-- `FEED.ESC.ESCD`, rule R79. -/
  | feedEscEscd
  /-- `FEED.LIT.ESCD`, rule R80. -/
  | feedLitEscd (b : Byte)
  /-- `APPEND`, rule R81. -/
  | append (v : Byte)
  /-- `CLOSE.LEN`, rule R82. -/
  | closeLen
  /-- `CLOSE.CK`, rule R83. -/
  | closeCk
  /-- `UNPACK`, rule R84. -/
  | unpack (now : BitVec Config.TS_W)
  /-- `RESET`, rule R125. -/
  | reset
deriving DecidableEq, Repr

end Sys2Proof
end

