-- ==== Sys2Proof/WellFormed.lean ====
section
/-! DEFINITION. Well-formed instructions. Operand widths are in the types; the one check left is that the byte
of a `FEED.LIT` case is a literal (rules R43, R74, R77, R80). -/

namespace Sys2Proof

/-- The byte is none of the three markers (rule R43, class LIT). -/
def isLiteral (b : Byte) : Bool := Machine.classify Machine.cfg b == .literal

/-- Whether an instruction is one of the table's rows with its operands. -/
def Instr.wf : Instr → Bool
  | .frameNew _ _ => true
  | .pack _ _ => true
  | .cksum _ _ _ => true
  | .stuff _ => true
  | .delimit _ => true
  | .enc _ _ => true
  | .encAccept _ _ => true
  | .encEmit => true
  | .feed _ _ => true
  | .feedStart => true
  | .feedEndIdle => true
  | .feedEscIdle => true
  | .feedLitIdle b => isLiteral b
  | .feedEndAcc _ => true
  | .feedEscAcc => true
  | .feedLitAcc b => isLiteral b
  | .feedEndEscd => true
  | .feedEscEscd => true
  | .feedLitEscd b => isLiteral b
  | .append _ => true
  | .closeLen => true
  | .closeCk => true
  | .unpack _ => true
  | .reset => true

end Sys2Proof
end

