-- ==== Sys2Proof/Decode.lean ====
section
/-! DEFINITION. From a word at the boundary to an instruction, total on any bytes, rejecting by name; then the
encoder, the other way round. A `FEED` case is named by the class of the byte and the decoder's state together
(rules R43, R52), so `decode` takes `dec_state`. Formats: ENCREQ (rule R49), PACKED24 (rules R27, R41), BODY32
(rule R42), RXBYTE (rule R43). Layout of the words: log entry 12. -/

namespace Sys2Proof

/-- Why a word is no operation. -/
inductive Reject where
  /-- The lane does not take that many bytes. -/
  | wrongLength (lane : Lane) (n : Nat)
  /-- A packed payload for the bit-packer whose two pad bits are not 0 (rule R41). -/
  | padNotZero
deriving DecidableEq, Repr

/-- The case of `FEED` selected by the byte's class and `dec_state` (rules R52, R70). -/
def feedCase (st : DecState) (b : Byte) (now : BitVec Config.TS_W) : Instr :=
  match Machine.classify Machine.cfg b, st with
  | .startMarker, _ => .feedStart
  | .endMarker, .idle => .feedEndIdle
  | .escMarker, .idle => .feedEscIdle
  | .literal, .idle => .feedLitIdle b
  | .endMarker, .accumulating => .feedEndAcc now
  | .escMarker, .accumulating => .feedEscAcc
  | .literal, .accumulating => .feedLitAcc b
  | .endMarker, .escaped => .feedEndEscd
  | .escMarker, .escaped => .feedEscEscd
  | .literal, .escaped => .feedLitEscd b

/-- A request word: `cmd_in` in the first byte, `data_in` in the next four, top byte first (rule R49). -/
def decodeReq (lane : Lane)
    (k : BitVec Config.W_CMD_IN → BitVec Config.W_DATA_IN → Instr) : List Byte → Except Reject Instr
  | [c, d3, d2, d1, d0] => .ok (k c (d3 ++ d2 ++ d1 ++ d0))
  | bs => .error (.wrongLength lane bs.length)

/-- A PACKED24 word, first byte first: command 23:20, data 19:2, pad 1:0 (rule R41). -/
def decodePacked : List Byte → Except Reject Instr
  | [b0, b1, b2] =>
    let w : BitVec 24 := b0 ++ b1 ++ b2
    if w.extractLsb' 0 2 = 0#2 then .ok (.pack (w.extractLsb' 20 4) (w.extractLsb' 2 18))
    else .error .padNotZero
  | bs => .error (.wrongLength (.stage .pack) bs.length)

/-- A stage's own operands (rule R51). -/
def decodeStage (k : Stage) (bs : List Byte) (now : BitVec Config.TS_W) : Except Reject Instr :=
  match k, bs with
  | .frameNew, bs => decodeReq (.stage .frameNew) .frameNew bs
  | .enc, bs => decodeReq (.stage .enc) .enc bs
  | .pack, bs => decodePacked bs
  | .cksum, [b0, b1, b2] => .ok (.cksum b0 b1 b2)
  | .stuff, bs => .ok (.stuff bs)
  | .delimit, bs => .ok (.delimit bs)
  | .append, [v] => .ok (.append v)
  | .closeLen, [] => .ok .closeLen
  | .closeCk, [] => .ok .closeCk
  | .unpack, [] => .ok (.unpack now)
  | k, bs => .error (.wrongLength (.stage k) bs.length)

/-- The instruction a word is, in a decoder in state `st`. -/
def decode (st : DecState) (w : OpWord) : Except Reject Instr :=
  match w.lane, w.bytes with
  | .rst, [] => .ok .reset
  | .encReq, bs => decodeReq .encReq .encAccept bs
  | .txReady, [] => .ok .encEmit
  | .rx, [b] => .ok (feedCase st b w.now)
  | .feed, [b] => .ok (.feed b w.now)
  | .stage k, bs => decodeStage k bs w.now
  | lane, bs => .error (.wrongLength lane bs.length)

/-! The encoder. -/

/-- The bytes of a request, as `decodeReq` reads them (rule R49). -/
def encodeReq (cmd : BitVec Config.W_CMD_IN) (data : BitVec Config.W_DATA_IN) : List Byte :=
  [cmd, data.extractLsb' 24 8, data.extractLsb' 16 8, data.extractLsb' 8 8, data.extractLsb' 0 8]

/-- The bytes of a packed payload: b0[7:4] = command, b0[3:0] = data[17:14], b1 = data[13:6],
b2[7:2] = data[5:0], b2[1:0] = 0 (rule R41). -/
def encodePacked (command : BitVec 4) (data : BitVec 18) : List Byte :=
  [command ++ data.extractLsb' 14 4, data.extractLsb' 6 8, data.extractLsb' 0 6 ++ 0#2]

/-- The word of an instruction. Where the instruction has no operand `now` the word's is 0, the model's choice (log
entry 12); nothing reads it. -/
def encode : Instr → OpWord
  | .frameNew cmd data => ⟨.stage .frameNew, encodeReq cmd data, 0⟩
  | .pack command data => ⟨.stage .pack, encodePacked command data, 0⟩
  | .cksum b0 b1 b2 => ⟨.stage .cksum, [b0, b1, b2], 0⟩
  | .stuff body => ⟨.stage .stuff, body, 0⟩
  | .delimit sbody => ⟨.stage .delimit, sbody, 0⟩
  | .enc cmd data => ⟨.stage .enc, encodeReq cmd data, 0⟩
  | .encAccept cmd data => ⟨.encReq, encodeReq cmd data, 0⟩
  | .encEmit => ⟨.txReady, [], 0⟩
  | .feed b now => ⟨.feed, [b], now⟩
  | .feedStart => ⟨.rx, [Machine.cfg.START], 0⟩
  | .feedEndIdle => ⟨.rx, [Machine.cfg.END], 0⟩
  | .feedEscIdle => ⟨.rx, [Machine.cfg.ESC], 0⟩
  | .feedLitIdle b => ⟨.rx, [b], 0⟩
  | .feedEndAcc now => ⟨.rx, [Machine.cfg.END], now⟩
  | .feedEscAcc => ⟨.rx, [Machine.cfg.ESC], 0⟩
  | .feedLitAcc b => ⟨.rx, [b], 0⟩
  | .feedEndEscd => ⟨.rx, [Machine.cfg.END], 0⟩
  | .feedEscEscd => ⟨.rx, [Machine.cfg.ESC], 0⟩
  | .feedLitEscd b => ⟨.rx, [b], 0⟩
  | .append v => ⟨.stage .append, [v], 0⟩
  | .closeLen => ⟨.stage .closeLen, [], 0⟩
  | .closeCk => ⟨.stage .closeCk, [], 0⟩
  | .unpack now => ⟨.stage .unpack, [], now⟩
  | .reset => ⟨.rst, [], 0⟩

/-- Whether `dec_state` can be `st` where the instruction is the one selected: the second half of a `FEED`
case's opcode (rule R52); any state for the rest. -/
def Instr.selectedIn : Instr → DecState → Bool
  | .frameNew _ _, _ => true
  | .pack _ _, _ => true
  | .cksum _ _ _, _ => true
  | .stuff _, _ => true
  | .delimit _, _ => true
  | .enc _ _, _ => true
  | .encAccept _ _, _ => true
  | .encEmit, _ => true
  | .feed _ _, _ => true
  | .feedStart, _ => true
  | .feedEndIdle, st => st == .idle
  | .feedEscIdle, st => st == .idle
  | .feedLitIdle _, st => st == .idle
  | .feedEndAcc _, st => st == .accumulating
  | .feedEscAcc, st => st == .accumulating
  | .feedLitAcc _, st => st == .accumulating
  | .feedEndEscd, st => st == .escaped
  | .feedEscEscd, st => st == .escaped
  | .feedLitEscd _, st => st == .escaped
  | .append _, _ => true
  | .closeLen, _ => true
  | .closeCk, _ => true
  | .unpack _, _ => true
  | .reset, _ => true

/-! The opcode table's own words: 8 bits is a byte at the RX port (format RXBYTE), 24 bits the packed payload
as one number (format PACKED24), 40 bits a request (format ENCREQ). The table gives no other row bits. -/

/-- The word that `nbits` bits of the opcode table's numbering are. The table's word carries no `now`, which the spec
leaves to the environment (rule R117); that it is 0 in this word is the model's choice (log entry 12). -/
def tableWord (nbits w : Nat) : Option OpWord :=
  match nbits with
  | 8 => some ⟨.rx, [BitVec.ofNat 8 w], 0⟩
  | 24 => some ⟨.stage .pack, [BitVec.ofNat 8 (w / 65536), BitVec.ofNat 8 (w / 256), BitVec.ofNat 8 w], 0⟩
  | 40 => some ⟨.encReq, [BitVec.ofNat 8 (w / 4294967296), BitVec.ofNat 8 (w / 16777216),
      BitVec.ofNat 8 (w / 65536), BitVec.ofNat 8 (w / 256), BitVec.ofNat 8 w], 0⟩
  | _ => none

/-- The instruction of a word of the opcode table, in the state the decoder has after reset, `IDLE`. -/
def decodeTableWord (nbits w : Nat) : Option Instr :=
  match tableWord nbits w with
  | some word =>
    match decode .idle word with
    | .ok i => some i
    | .error _ => none
  | none => none

end Sys2Proof
end

