-- ==== Sys2Proof/Machine/State.lean ====
section
/-! DEFINITION. The state, as plain data: the block's architectural state of rule R11 (`Enc`, `Dec`), the
outputs of the operation just performed (rules R20, R21; log entry 3), the environment's side of the ports
(log entries 9, 10), and the model's own two fields `draws` and `hasReset` (log entries 4, 11). Then what can stop
a step, and the state after reset (rule R23). -/

namespace Sys2Proof.Machine

/-- The four body bytes before stuffing (format BODY32, rule R42). -/
structure Body where
  b0 : Byte
  b1 : Byte
  b2 : Byte
  ck : Byte
deriving DecidableEq, Repr

/-- A Frame value (rule R55): the timestamp is there only on Frames the decoder emits (rule R84). -/
structure Frame (tw : Nat) where
  command : BitVec 4
  data : BitVec 18
  timestamp : Option (BitVec tw)
deriving DecidableEq, Repr

/-- The response of an accepted request (format ENCRSP, rule R49). -/
inductive EncRsp where
  | ok
  | outOfRange
deriving DecidableEq, Repr

/-- A byte handed to the TX stream with its end-of-frame flag: `TxPut(b, last)`. -/
structure TxByte where
  byte : Byte
  last : Bool
deriving DecidableEq, Repr

/-- The two errors a decoder can raise (rule R105). -/
inductive DecError where
  | framing
  | checksum
deriving DecidableEq, Repr

/-- The event of one `FEED` (format DECEV, rule R50); only a Frame has fields (U5). -/
inductive Event (tw : Nat) where
  | none
  | frame (f : Frame tw)
  | framingError
  | checksumError
deriving DecidableEq, Repr

/-- The result of a stage run as an instruction of its own (rule R51). -/
inductive StageOut where
  /-- A constructed Frame (`FRAME.NEW`). -/
  | frame (f : Frame Config.TS_W)
  /-- `OutOfRange`, and nothing constructed (`FRAME.NEW`, `ENC`). -/
  | outOfRange
  /-- A byte sequence (`PACK`, `STUFF`, `DELIMIT`, `ENC`). -/
  | bytes (bs : List Byte)
  /-- One byte (`CKSUM`). -/
  | byte (v : Byte)
  /-- The test held and raised nothing (`CLOSE.LEN`, `CLOSE.CK`). -/
  | passed
deriving DecidableEq, Repr

/-- What crossed the boundary in one operation; a port that was not valid has no value (U5, log entry 14). -/
structure Outputs where
  /-- `enc_rsp`, in the operation that accepts a request (rule R20). -/
  encRsp : Option EncRsp
  /-- `tx_byte` and `tx_last`, in a TX transfer (rule R20). -/
  tx : Option TxByte
  /-- `ev_kind` and its fields (rule R21). -/
  ev : Event Config.TS_W
  /-- A stage's result (log entry 6). -/
  stage : Option StageOut
deriving DecidableEq, Repr

/-- The storage of the decoder, `BUF` (rule R25): (index, byte) cells, indices strictly rising, below 4. An
index with no cell holds no value (rule R23, U1; log entry 5). -/
abbrev Memory := List Host.Cell

/-- The encoder's state (rules R12, R13). -/
structure Enc where
  /-- `enc_word[0..3]`. -/
  encWord : Body
  /-- `enc_busy`. -/
  encBusy : Bool
  /-- `enc_idx`, 0 to 5 (U4). -/
  encIdx : Fin 6
  /-- `enc_esc`. -/
  encEsc : Bool
deriving DecidableEq, Repr

/-- The decoder's state (rules R14 to R18), with counters of `cw` bits. -/
structure Dec (cw : Nat) where
  /-- `dec_state`. -/
  decState : DecState
  /-- `dec_len`, 0 to 5, where 5 means five or more. -/
  decLen : Fin 6
  /-- `BUF`. -/
  buf : Memory
  /-- `fe_cnt`. -/
  feCnt : BitVec cw
  /-- `ce_cnt`. -/
  ceCnt : BitVec cw
deriving DecidableEq, Repr

/-- The block's state under a configuration (rule R11), its counters `CNT_W` bits wide (rule R7). -/
structure Block (c : Cfg) where
  enc : Enc
  dec : Dec c.CNT_W
deriving DecidableEq, Repr

/-- The operations of the block under a configuration (rule R10), their operands at the configuration's widths
(rule R7): what the ports of rules R20 and R21 carry. -/
inductive Op (c : Cfg) where
  /-- `ENC.ACCEPT`, rule R61. -/
  | accept (cmd : BitVec c.W_CMD_IN) (data : BitVec c.W_DATA_IN)
  /-- `ENC.EMIT`, rule R62. -/
  | emit
  /-- `FEED`, rule R70. -/
  | feed (b : Byte) (now : BitVec c.TS_W)
  /-- `RESET`, rule R125. -/
  | reset
deriving DecidableEq, Repr

/-- What an operation of the block puts on its ports under a configuration (rules R20, R21). -/
structure BlockOut (c : Cfg) where
  /-- `enc_rsp`. -/
  encRsp : Option EncRsp
  /-- `tx_byte` and `tx_last`. -/
  tx : Option TxByte
  /-- `ev_kind` and its fields, the timestamp `TS_W` bits wide. -/
  ev : Event c.TS_W
deriving DecidableEq, Repr

/-- The environment's side of the ports (rules R10, R20, R21): not state of the block. -/
structure Env where
  /-- The `rst` pin of both blocks. Rule R21 leaves open whether they share it; the model's choice is that they do
  (log entry 10): one pin, whose `RESET` resets encoder and decoder together. -/
  rst : Bool
  /-- What is offered, oldest first. -/
  pend : List OpWord
deriving DecidableEq, Repr

/-- The machine's state: a `Block cfg` (`State.block`) beside the outputs and the environment. -/
structure State where
  enc : Enc
  dec : Dec Config.CNT_W
  out : Outputs
  env : Env
  draws : Nat
  hasReset : Bool
deriving DecidableEq, Repr

/-- What stops the machine. All are safe: the block's own operations never reach one (Safety.lean). -/
inductive Fault where
  /-- A read of a `BUF` entry that holds no value (U1). Raised by the reads of the close, `CLOSE.CK` and
  `UNPACK` in states no run reaches. Safe. -/
  | bufNoValue (i : Nat)
  /-- A `BUF` index outside 0..3, which rule R32 says is never generated; raised by `Memory.load` and
  `Memory.store`. Safe. -/
  | bufOutOfRange (i : Nat)
deriving DecidableEq, Repr

/-- Why an instruction is given no meaning in a state. All are safe: the model stops. -/
inductive Refusal where
  /-- An arm of `exec` that has no meaning yet. Safe. -/
  | notModelled (mnemonic : String)
  /-- A `FEED` case where the pair (byte class, `dec_state`) selects another row of rule R52; raised by the
  case's meaning. Safe: `fetch` never selects it (log entry 7). -/
  | caseNotSelected
  /-- `CLOSE.CK` or `UNPACK` outside what their rules say they are reached with (rules R83, R84). Safe (log
  entry 6). -/
  | stageNotReached
  /-- `enc_esc = 1` with `enc_busy = 0` (U4: refuse); raised by `ENC.ACCEPT`. Safe (log entry 13). -/
  | unreachable
  /-- Anything but `RESET` before the first `RESET` (U3: refuse); raised by `fetch`. Safe (log entry 11). -/
  | beforeFirstReset
  /-- An offered word that is no operation; raised by `fetch`. Safe (log entry 12). -/
  | badWord (r : Reject)
deriving DecidableEq, Repr

/-- The outcome of an operation of the block under a configuration. -/
abbrev BlockResult (c : Cfg) := Host.Outcome (Block c × BlockOut c) Fault Refusal

/-- The outcome of an operation. -/
abbrev Result := Host.Outcome State Fault Refusal

/-- Nothing crossed the boundary: `tx_valid = 0`, `ev_kind = NONE` (rule R23). -/
def Outputs.idle : Outputs where
  encRsp := none
  tx := none
  ev := .none
  stage := none

/-- Nothing crosses the block's ports (rule R23). -/
def BlockOut.idle (c : Cfg) : BlockOut c where
  encRsp := none
  tx := none
  ev := .none

/-- The encoder after `RESET` (rules R23, R125): idle, its four bytes unspecified, drawn from position `n` on. -/
def Enc.reset (n : Nat) : Enc where
  encWord := ⟨Config.unspecByte n, Config.unspecByte (n + 1), Config.unspecByte (n + 2), Config.unspecByte (n + 3)⟩
  encBusy := false
  encIdx := 0
  encEsc := false

/-- The decoder after `RESET` (rules R23, R125): `IDLE`, nothing accumulated, `BUF` without values, the counters
at 0. -/
def Dec.reset (cw : Nat) : Dec cw where
  decState := .idle
  decLen := 0
  buf := []
  feCnt := 0
  ceCnt := 0

/-- The block after `RESET` under a configuration (rules R23, R125), unspecified bytes from position `n` on. Like every
operation of the block it takes the proof of `CFG_WF` (rule R8), so that a `Cfg` without it has no meaning (U6). -/
def Block.reset (c : Cfg) (_ : c.WF) (n : Nat) : Block c where
  enc := Enc.reset n
  dec := Dec.reset c.CNT_W

/-- The machine right after the first `RESET` (rule R23), with nothing offered at the ports. -/
def State.reset : State where
  enc := Enc.reset 0
  dec := Dec.reset Config.CNT_W
  out := Outputs.idle
  env := { rst := false, pend := [] }
  draws := 4
  hasReset := true

end Sys2Proof.Machine
end

