-- ==== Sys2Proof/Machine/Operands.lean ====
section
/-! DEFINITION. Assembling and taking apart operands: the packed payload (rules R41, R46, R47, R56), the body
(rules R28, R42), the fields of a decoded Frame (rules R47, R48, R84) and the numeric codes of the ports
(rules R14, R49, R50). -/

namespace Sys2Proof.Machine

/-- The packed payload as one number: `command << 20 OR data << 2`, pad bits 0 (rules R46, R56). -/
def packWord (command : BitVec 4) (data : BitVec 18) : BitVec 24 :=
  (command.zeroExtend 24 <<< 20) ||| (data.zeroExtend 24 <<< 2)

/-- `PACK`: the packed payload's three bytes, most significant first (rules R27, R56). -/
def pack (command : BitVec 4) (data : BitVec 18) : Byte × Byte × Byte :=
  let w := packWord command data
  (w.extractLsb' 16 8, w.extractLsb' 8 8, w.extractLsb' 0 8)

/-- `CKSUM` is `Cfg.CK` (rule R57). -/
def cksum (c : Cfg) (b0 b1 b2 : Byte) : Byte := c.CK b0 b1 b2

/-- The body of a Frame: the packed bytes and their checksum (rules R28, R42). -/
def bodyOf (c : Cfg) (command : BitVec 4) (data : BitVec 18) : Body :=
  let p := pack command data
  { b0 := p.1, b1 := p.2.1, b2 := p.2.2, ck := cksum c p.1 p.2.1 p.2.2 }

/-- The body's bytes in transmission order (rules R12, R28). -/
def Body.toList (w : Body) : List Byte := [w.b0, w.b1, w.b2, w.ck]

/-- `enc_word[i]` (rule R12). -/
def Body.byteAt (w : Body) (i : Nat) : Byte :=
  match i with
  | 0 => w.b0
  | 1 => w.b1
  | 2 => w.b2
  | _ => w.ck

/-- Three buffered bytes as the packed payload (rule R47). -/
def joinWord (b0 b1 b2 : Byte) : BitVec 24 :=
  (b0.zeroExtend 24 <<< 16) ||| (b1.zeroExtend 24 <<< 8) ||| b2.zeroExtend 24

/-- The Frame of a checked body: `command = w[23:20]`, `data = w[19:2]`, the pad bits ignored, the timestamp the
`now` of this operation (rules R47, R48, R84). -/
def unpackFrame {tw : Nat} (w : Body) (now : BitVec tw) : Frame tw :=
  let p := joinWord w.b0 w.b1 w.b2
  { command := p.extractLsb' 20 4, data := p.extractLsb' 2 18, timestamp := some now }

/-- The checksum test of rule R83 fails: the recomputed checksum differs from the fourth byte. -/
def ckFails (c : Cfg) (w : Body) : Bool := cksum c w.b0 w.b1 w.b2 != w.ck

/-- The binary code of `dec_state` at its port (rule R14). -/
def decStateCode : DecState → BitVec 2
  | .idle => 0b00#2
  | .accumulating => 0b01#2
  | .escaped => 0b10#2

/-- The code of `enc_rsp` (rule R49). -/
def encRspCode : EncRsp → BitVec 1
  | .ok => 0#1
  | .outOfRange => 1#1

/-- The code of `ev_kind` (rule R50). -/
def evKindCode {tw : Nat} : Event tw → BitVec 2
  | .none => 0#2
  | .frame _ => 1#2
  | .framingError => 2#2
  | .checksumError => 3#2

end Sys2Proof.Machine
end

