-- ==== Sys2Proof/Machine/Ops.lean ====
section
/-! DEFINITION. The named operations: `BUF` (MemRead and MemWrite, rules R25, R31, R32), APPEND (rule R81), raising
an error and taking it (rule R113; the one shared operation, with the automatic return of rule R114), and what an
operation does to the whole state around a block's step: outputs, waiting, guards, `RESET`. -/

namespace Sys2Proof.Machine

/-! Storage. -/

/-- The value at an index, if it holds one. -/
def Memory.lookup : Memory → Nat → Option Byte
  | [], _ => none
  | (a, v) :: rest, i => if a = i then some v else Memory.lookup rest i

/-- Put `v` at `i`, keeping the indices strictly rising. -/
def Memory.insert : Memory → Nat → Byte → Memory
  | [], i, v => [(i, v)]
  | (a, x) :: rest, i, v =>
    if i < a then (i, v) :: (a, x) :: rest
    else if i = a then (i, v) :: rest
    else (a, x) :: Memory.insert rest i v

/-- The canonical form: indices strictly rising from `lo` on, all below 4. -/
def Memory.wfFrom : Nat → Memory → Bool
  | _, [] => true
  | lo, (a, _) :: rest => decide (lo ≤ a) && decide (a < Config.BODY_BYTES) && Memory.wfFrom (a + 1) rest

/-- The canonical form of `BUF`: indices strictly rising and in 0..3 (rule R25). -/
def Memory.wf (m : Memory) : Bool := Memory.wfFrom 0 m

/-- `MemRead(i, 1)`. -/
def Memory.load (m : Memory) (i : Nat) : Except Fault Byte :=
  if i < Config.BODY_BYTES then
    match Memory.lookup m i with
    | some v => .ok v
    | none => .error (.bufNoValue i)
  else .error (.bufOutOfRange i)

/-- `MemWrite(i, 1, v)`. -/
def Memory.store (m : Memory) (i : Nat) (v : Byte) : Except Fault Memory :=
  if i < Config.BODY_BYTES then .ok (Memory.insert m i v) else .error (.bufOutOfRange i)

/-- The four constant-index reads of the close (rule R92). -/
def Memory.loadBody (m : Memory) : Except Fault Body := do
  let b0 ← Memory.load m 0
  let b1 ← Memory.load m 1
  let b2 ← Memory.load m 2
  let ck ← Memory.load m 3
  return { b0, b1, b2, ck }

/-! The decoder's shared operations. -/

/-- `APPEND(v)` (rule R81). -/
def Dec.append {cw : Nat} (v : Byte) (d : Dec cw) : Except Fault (Dec cw) :=
  if d.decLen.val < Config.BODY_BYTES then
    match Memory.store d.buf d.decLen.val v with
    | .ok m => .ok { d with buf := m, decLen := idxSucc d.decLen }
    | .error f => .error f
  else .ok { d with decLen := 5 }

/-- The end of every close: `IDLE` and length 0; `BUF` is not cleared (rule R75). -/
def Dec.toIdle {cw : Nat} (d : Dec cw) : Dec cw := { d with decState := .idle, decLen := 0 }

/-- The counter of an error, saturating (rules R18, R82, R83). -/
def Dec.countError {cw : Nat} (e : DecError) (d : Dec cw) : Dec cw :=
  match e with
  | .framing => { d with feCnt := satInc d.feCnt }
  | .checksum => { d with ceCnt := satInc d.ceCnt }

/-- The event that reports an error (rule R105). -/
def DecError.event {tw : Nat} : DecError → Event tw
  | .framing => .framingError
  | .checksum => .checksumError

/-- `raise`: the counter and the event (rules R82, R83). -/
def Dec.raise {cw tw : Nat} (e : DecError) (d : Dec cw) : Dec cw × Event tw := (d.countError e, e.event)

/-- Taking a decoder error, the whole of rule R113: `dec_state <- IDLE`, `dec_len <- 0`, the counter
incremented, the event driven; nothing is saved. The return (rule R114) is automatic: the decoder is in `IDLE`
and the next `START` opens a frame, so there is no operation for it. -/
def Dec.takeError {cw tw : Nat} (e : DecError) (d : Dec cw) : Dec cw × Event tw :=
  ((d.countError e).toIdle, e.event)

/-! Around a block's step. -/

/-- The outputs of an accepted request. -/
def Outputs.ofRsp (r : EncRsp) : Outputs := { Outputs.idle with encRsp := some r }

/-- The outputs of a TX transfer. -/
def Outputs.ofTx (t : TxByte) : Outputs := { Outputs.idle with tx := some t }

/-- The outputs of a `FEED`. -/
def Outputs.ofEvent (e : Event Config.TS_W) : Outputs := { Outputs.idle with ev := e }

/-- The outputs of a stage. -/
def Outputs.ofStage (r : StageOut) : Outputs := { Outputs.idle with stage := some r }

/-- No operation took place: the block keeps its state, no port is valid (log entries 8, 18). -/
def State.quiet (s : State) : State := { s with out := Outputs.idle }

/-- A stage that touches no state gave its result. -/
def State.giveStage (r : StageOut) (s : State) : State := { s with out := Outputs.ofStage r }

/-- The block of the machine: the default configuration's (rules R7, R11). -/
def State.block (s : State) : Block cfg := ⟨s.enc, s.dec⟩

/-- The ports of the block as the machine records them. -/
def Outputs.ofBlock (o : BlockOut cfg) : Outputs where
  encRsp := o.encRsp
  tx := o.tx
  ev := o.ev
  stage := none

/-- The machine's part of an operation of its block: the block's next state and its ports, the rest as it was. -/
def State.runBlock (r : BlockResult cfg) (s : State) : Result :=
  match r with
  | .next (b, o) => .next { s with enc := b.enc, dec := b.dec, out := Outputs.ofBlock o }
  | .fault f => .fault f
  | .refused q => .refused q

/-- The decoder made its step; all of the operation's writes and its event together (rule R31). -/
def State.runDec (r : Except Fault (Dec Config.CNT_W × Event Config.TS_W)) (s : State) : Result :=
  match r with
  | .ok (d, e) => .next { s with dec := d, out := Outputs.ofEvent e }
  | .error f => .fault f

/-- A `FEED` case: its effect where the pair (class, `dec_state`) selects it (rule R52; log entry 7). -/
def State.runCase (selected : Bool) (r : Except Fault (Dec Config.CNT_W × Event Config.TS_W)) (s : State) :
    Result :=
  if selected then s.runDec r else .refused .caseNotSelected

/-- `RESET` (rule R125): both blocks as in rule R23, together (log entry 10), no event, no TX byte; the environment
is not the block's. -/
def State.applyReset (s : State) : State :=
  { s with
    enc := (Block.reset cfg cfg_wf s.draws).enc
    dec := (Block.reset cfg cfg_wf s.draws).dec
    out := Outputs.idle
    draws := s.draws + 4
    hasReset := true }

end Sys2Proof.Machine
end

