-- ==== Sys2Proof/Machine/Decoder.lean ====
section
/-! DEFINITION. The decoder: `FEED` and its ten cases (rules R70 to R80) as functions of the decoder's state under any
`Cfg`, and the meanings of the rows `FEED`, `FEED.*`. -/

namespace Sys2Proof.Machine

/-- A step that gives no event. -/
def noEvent {cw tw : Nat} (r : Except Fault (Dec cw)) : Except Fault (Dec cw × Event tw) :=
  match r with
  | .ok d => .ok (d, .none)
  | .error f => .error f

/-- `FEED.START`: the resynchronizer (rule R71). -/
def Dec.start {cw : Nat} (d : Dec cw) : Dec cw := { d with decLen := 0, decState := .accumulating }

/-- `FEED.ESC.ACC` (rule R76). -/
def Dec.escape {cw : Nat} (d : Dec cw) : Dec cw := { d with decState := .escaped }

/-- The cases in `ESCAPED`: append `b XOR MASK`, back to `ACCUMULATING` (rules R78, R79, R80). -/
def Dec.destuff {cw : Nat} (c : Cfg) (b : Byte) (d : Dec cw) : Except Fault (Dec cw) :=
  match d.append (xform c b) with
  | .ok d' => .ok { d' with decState := .accumulating }
  | .error f => .error f

/-- `FEED.END.ACC`: close the frame; length first, then checksum, then the Frame (rules R75, R82 to R84,
R112). The tests read the state from before. -/
def Dec.close {cw tw : Nat} (c : Cfg) (now : BitVec tw) (d : Dec cw) : Except Fault (Dec cw × Event tw) :=
  if lenFails d.decLen then .ok (d.takeError .framing)
  else
    match Memory.loadBody d.buf with
    | .error f => .error f
    | .ok w =>
      if ckFails c w then .ok (d.takeError .checksum)
      else .ok (d.toIdle, .frame (unpackFrame w now))

/-- `FEED(b, now)` (rule R70): `START` first, then by `dec_state` and class. -/
def Dec.feed {cw tw : Nat} (c : Cfg) (b : Byte) (now : BitVec tw) (d : Dec cw) :
    Except Fault (Dec cw × Event tw) :=
  match classify c b, d.decState with
  | .startMarker, _ => .ok (d.start, .none)
  | .endMarker, .idle => .ok (d, .none)
  | .escMarker, .idle => .ok (d, .none)
  | .literal, .idle => .ok (d, .none)
  | .endMarker, .accumulating => d.close c now
  | .escMarker, .accumulating => .ok (d.escape, .none)
  | .literal, .accumulating => noEvent (d.append b)
  | .endMarker, .escaped => noEvent (d.destuff c b)
  | .escMarker, .escaped => noEvent (d.destuff c b)
  | .literal, .escaped => noEvent (d.destuff c b)

/-- `FEED` on the block under any configuration with `CFG_WF` (rule R8), `now` and the event's timestamp `TS_W` bits wide and the counters
`CNT_W` (rules R7, R70). -/
def Block.feed (c : Cfg) (_ : c.WF) (v : Byte) (now : BitVec c.TS_W) (b : Block c) : BlockResult c :=
  match b.dec.feed c v now with
  | .ok (d, e) => .next ({ b with dec := d }, { BlockOut.idle c with ev := e })
  | .error f => .fault f

/-! Meanings. -/

/-- The decoder is in state `st`. -/
def State.decIn (st : DecState) (s : State) : Bool := s.dec.decState == st

/-- `FEED` (rule R70). -/
def execFeed (b : Byte) (now : BitVec Config.TS_W) (s : State) : Result := s.runBlock (s.block.feed cfg cfg_wf b now)

/-- `FEED.START` (rule R71), in any state. -/
def execFeedStart (s : State) : Result := s.runDec (.ok (s.dec.start, .none))

/-- `FEED.END.IDLE` (rule R72): dropped. -/
def execFeedEndIdle (s : State) : Result := s.runCase (s.decIn .idle) (.ok (s.dec, .none))

/-- `FEED.ESC.IDLE` (rule R73): dropped. -/
def execFeedEscIdle (s : State) : Result := s.runCase (s.decIn .idle) (.ok (s.dec, .none))

/-- `FEED.LIT.IDLE` (rule R74): dropped. -/
def execFeedLitIdle (b : Byte) (s : State) : Result :=
  s.runCase (s.decIn .idle && isLiteral b) (.ok (s.dec, .none))

/-- `FEED.END.ACC` (rule R75): close. -/
def execFeedEndAcc (now : BitVec Config.TS_W) (s : State) : Result :=
  s.runCase (s.decIn .accumulating) (s.dec.close cfg now)

/-- `FEED.ESC.ACC` (rule R76). -/
def execFeedEscAcc (s : State) : Result := s.runCase (s.decIn .accumulating) (.ok (s.dec.escape, .none))

/-- `FEED.LIT.ACC` (rule R77). -/
def execFeedLitAcc (b : Byte) (s : State) : Result :=
  s.runCase (s.decIn .accumulating && isLiteral b) (noEvent (s.dec.append b))

/-- `FEED.END.ESCD` (rule R78): appended, not closed. -/
def execFeedEndEscd (s : State) : Result :=
  s.runCase (s.decIn .escaped) (noEvent (s.dec.destuff cfg cfg.END))

/-- `FEED.ESC.ESCD` (rule R79): data, not a new escape. -/
def execFeedEscEscd (s : State) : Result :=
  s.runCase (s.decIn .escaped) (noEvent (s.dec.destuff cfg cfg.ESC))

/-- `FEED.LIT.ESCD` (rule R80). -/
def execFeedLitEscd (b : Byte) (s : State) : Result :=
  s.runCase (s.decIn .escaped && isLiteral b) (noEvent (s.dec.destuff cfg b))

end Sys2Proof.Machine
end

