-- ==== Sys2Proof/Machine/Encoder.lean ====
section
/-! DEFINITION. The encoder: Frame construction and the stages as functions (rules R55 to R60), the two operations
of the hardware (rules R61, R62), and the meanings of the rows `FRAME.NEW`, `PACK`, `CKSUM`, `STUFF`, `DELIMIT`,
`ENC`, `ENC.ACCEPT`, `ENC.EMIT`. -/

namespace Sys2Proof.Machine

/-- `FRAME.NEW(command, data)` over the document's integers (rule R55): `none` is `OutOfRange`, nothing
constructed. -/
def frameNew (command data : Int) : Option (Frame Config.TS_W) :=
  if inRange command data then
    some { command := BitVec.ofInt 4 command, data := BitVec.ofInt 18 data, timestamp := none }
  else none

/-- `STUFF(body)` (rule R58). -/
def stuff (c : Cfg) : List Byte → List Byte
  | [] => []
  | v :: rest => if isMarker c v then c.ESC :: xform c v :: stuff c rest else v :: stuff c rest

/-- `DELIMIT(sbody)` (rule R59). -/
def delimit (c : Cfg) (sbody : List Byte) : List Byte := [c.START] ++ sbody ++ [c.END]

/-- The bytes of a valid Frame: the stages after `FRAME.NEW` (rule R60). -/
def frameBytes (c : Cfg) (command : BitVec 4) (data : BitVec 18) : List Byte :=
  delimit c (stuff c (bodyOf c command data).toList)

/-- `ENC(command, data)`, the encoder as a pure function (rule R60): `none` is `OutOfRange`, no bytes. -/
def encodeFrame (c : Cfg) (command data : Int) : Option (List Byte) :=
  match frameNew command data with
  | some f => some (frameBytes c f.command f.data)
  | none => none

/-- `ENC.ACCEPT(cmd_in, data_in)` in an idle encoder (rule R61). -/
def Enc.accept {wc wd : Nat} (c : Cfg) (cmd : BitVec wc) (data : BitVec wd) (e : Enc) : Enc × EncRsp :=
  match frameNew cmd.toNat data.toNat with
  | some f => ({ encWord := bodyOf c f.command f.data, encIdx := 0, encEsc := false, encBusy := true }, .ok)
  | none => (e, .outOfRange)

/-- `ENC.EMIT` in a busy encoder (rule R62). -/
def Enc.emit (c : Cfg) (e : Enc) : Enc × TxByte :=
  if e.encIdx.val = 0 then ({ e with encIdx := 1 }, ⟨c.START, false⟩)
  else if e.encIdx.val = 5 then
    ({ e with encIdx := 0, encEsc := false, encBusy := false }, ⟨c.END, true⟩)
  else
    let v := e.encWord.byteAt (e.encIdx.val - 1)
    if e.encEsc then ({ e with encEsc := false, encIdx := idxSucc e.encIdx }, ⟨xform c v, false⟩)
    else if isMarker c v then ({ e with encEsc := true }, ⟨c.ESC, false⟩)
    else ({ e with encIdx := idxSucc e.encIdx }, ⟨v, false⟩)

/-! The two operations on the block, under any configuration with `CFG_WF` (rule R8). -/

/-- `ENC.ACCEPT` (rule R61), its operands as wide as the ports (rules R7, R20). While a frame is in flight it is not
enabled and the request waits (rule R130, log entry 8); `enc_esc = 1` in an idle encoder is refused (U4, log entry
13). -/
def Block.accept (c : Cfg) (_ : c.WF) (cmd : BitVec c.W_CMD_IN) (data : BitVec c.W_DATA_IN) (b : Block c) :
    BlockResult c :=
  if b.enc.encBusy then .next (b, BlockOut.idle c)
  else if b.enc.encEsc then .refused .unreachable
  else
    let r := b.enc.accept c cmd data
    .next ({ b with enc := r.1 }, { BlockOut.idle c with encRsp := some r.2 })

/-- `ENC.EMIT` (rule R62). In an idle encoder it is not enabled: no byte (log entry 8). -/
def Block.emit (c : Cfg) (_ : c.WF) (b : Block c) : BlockResult c :=
  if b.enc.encBusy then
    let r := b.enc.emit c
    .next ({ b with enc := r.1 }, { BlockOut.idle c with tx := some r.2 })
  else .next (b, BlockOut.idle c)

/-! Meanings. -/

/-- `FRAME.NEW` at the port's width (rules R49, R55). -/
def execFrameNew (cmd : BitVec Config.W_CMD_IN) (data : BitVec Config.W_DATA_IN) (s : State) : Result :=
  match frameNew cmd.toNat data.toNat with
  | some f => .next (s.giveStage (.frame f))
  | none => .next (s.giveStage .outOfRange)

/-- `PACK` (rule R56). -/
def execPack (command : BitVec 4) (data : BitVec 18) (s : State) : Result :=
  let p := pack command data
  .next (s.giveStage (.bytes [p.1, p.2.1, p.2.2]))

/-- `CKSUM` (rule R57). -/
def execCksum (b0 b1 b2 : Byte) (s : State) : Result :=
  .next (s.giveStage (.byte (cksum cfg b0 b1 b2)))

/-- `STUFF` (rule R58). -/
def execStuff (body : List Byte) (s : State) : Result :=
  .next (s.giveStage (.bytes (stuff cfg body)))

/-- `DELIMIT` (rule R59). -/
def execDelimit (sbody : List Byte) (s : State) : Result :=
  .next (s.giveStage (.bytes (delimit cfg sbody)))

/-- `ENC` (rule R60). -/
def execEnc (cmd : BitVec Config.W_CMD_IN) (data : BitVec Config.W_DATA_IN) (s : State) : Result :=
  match encodeFrame cfg cmd.toNat data.toNat with
  | some bs => .next (s.giveStage (.bytes bs))
  | none => .next (s.giveStage .outOfRange)

/-- `ENC.ACCEPT` (rule R61). -/
def execEncAccept (cmd : BitVec Config.W_CMD_IN) (data : BitVec Config.W_DATA_IN) (s : State) : Result :=
  s.runBlock (s.block.accept cfg cfg_wf cmd data)

/-- `ENC.EMIT` (rule R62). -/
def execEncEmit (s : State) : Result := s.runBlock (s.block.emit cfg cfg_wf)

end Sys2Proof.Machine
end

