-- ==== Sys2Proof/Machine/Stages.lean ====
section
/-! DEFINITION. The decoder's stages as instructions of their own (rules R51, R81 to R84): `APPEND`, `CLOSE.LEN`,
`CLOSE.CK`, `UNPACK`. What each does standing alone, outside a close, is log entry 6. -/

namespace Sys2Proof.Machine

/-- `APPEND` (rule R81). -/
def execAppend (v : Byte) (s : State) : Result := s.runDec (noEvent (s.dec.append v))

/-- `CLOSE.LEN` (rule R82): counts and raises `FramingError`, or passes; `BUF` is not read. -/
def execCloseLen (s : State) : Result :=
  if lenFails s.dec.decLen then s.runDec (.ok (s.dec.raise .framing)) else .next (s.giveStage .passed)

/-- `CLOSE.CK` (rule R83), reached only with length 4: counts and raises `ChecksumError`, or passes. -/
def execCloseCk (s : State) : Result :=
  if lenFails s.dec.decLen then .refused .stageNotReached
  else
    match Memory.loadBody s.dec.buf with
    | .error f => .fault f
    | .ok w => if ckFails cfg w then s.runDec (.ok (s.dec.raise .checksum)) else .next (s.giveStage .passed)

/-- `UNPACK` (rule R84), reached only with length 4 and a matching checksum: emits the Frame. -/
def execUnpack (now : BitVec Config.TS_W) (s : State) : Result :=
  if lenFails s.dec.decLen then .refused .stageNotReached
  else
    match Memory.loadBody s.dec.buf with
    | .error f => .fault f
    | .ok w =>
      if ckFails cfg w then .refused .stageNotReached
      else s.runDec (.ok (s.dec, .frame (unpackFrame w now)))

end Sys2Proof.Machine
end

