-- ==== Sys2Proof/Machine/System.lean ====
section
/-! DEFINITION. The one operation on the whole block (rule R93): `RESET`. -/

namespace Sys2Proof.Machine

/-- `RESET` (rule R125), in any state. -/
def execReset (s : State) : Result := .next s.applyReset

end Sys2Proof.Machine
end

