-- ==== Sys2Proof/Machine/Dispatch.lean ====
section
/-! DEFINITION. One arm per row of opcode_table.json. -/

namespace Sys2Proof.Machine

def exec (i : Instr) (s : State) : Host.Outcome State Fault Refusal :=
  match i with
  | .frameNew cmd data => Sys2Proof.Machine.execFrameNew cmd data s
  | .pack command data => Sys2Proof.Machine.execPack command data s
  | .cksum b0 b1 b2 => Sys2Proof.Machine.execCksum b0 b1 b2 s
  | .stuff body => Sys2Proof.Machine.execStuff body s
  | .delimit sbody => Sys2Proof.Machine.execDelimit sbody s
  | .enc cmd data => Sys2Proof.Machine.execEnc cmd data s
  | .encAccept cmd data => Sys2Proof.Machine.execEncAccept cmd data s
  | .encEmit => Sys2Proof.Machine.execEncEmit s
  | .feed b now => Sys2Proof.Machine.execFeed b now s
  | .feedStart => Sys2Proof.Machine.execFeedStart s
  | .feedEndIdle => Sys2Proof.Machine.execFeedEndIdle s
  | .feedEscIdle => Sys2Proof.Machine.execFeedEscIdle s
  | .feedLitIdle b => Sys2Proof.Machine.execFeedLitIdle b s
  | .feedEndAcc now => Sys2Proof.Machine.execFeedEndAcc now s
  | .feedEscAcc => Sys2Proof.Machine.execFeedEscAcc s
  | .feedLitAcc b => Sys2Proof.Machine.execFeedLitAcc b s
  | .feedEndEscd => Sys2Proof.Machine.execFeedEndEscd s
  | .feedEscEscd => Sys2Proof.Machine.execFeedEscEscd s
  | .feedLitEscd b => Sys2Proof.Machine.execFeedLitEscd b s
  | .append v => Sys2Proof.Machine.execAppend v s
  | .closeLen => Sys2Proof.Machine.execCloseLen s
  | .closeCk => Sys2Proof.Machine.execCloseCk s
  | .unpack now => Sys2Proof.Machine.execUnpack now s
  | .reset => Sys2Proof.Machine.execReset s

end Sys2Proof.Machine
end

