-- ==== Sys2Proof/Machine/Fetch.lean ====
section
/-! DEFINITION. Which operation the next step performs. The block fetches nothing (rule R38): the environment's
offers stand at the ports in the order they were made, and an operation takes place when its port is ready: a
request only when `enc_busy = 0` (rules R20, R61), a TX transfer only when `enc_busy = 1` (rules R20, R62), a
byte always (rule R133), `RESET` always and before everything else offered in the step (rule R125). Log entries 1,
9, 10, 11, 18. -/

namespace Sys2Proof.Machine

/-- What the next step does. -/
inductive Fetched where
  /-- No offered operation is enabled. -/
  | quiet
  /-- The operation `i`, in the state with its offer taken. -/
  | run (i : Instr) (s : State)
  /-- No meaning. -/
  | stop (r : Refusal)
deriving DecidableEq, Repr

/-- Whether an offer's port is ready, in an encoder that is busy or not (rules R20, R21). -/
def laneReady (busy : Bool) : Lane → Bool
  | .rst => true
  | .encReq => !busy
  | .txReady => busy
  | .rx => true
  | .feed => true
  | .stage _ => true

/-- The oldest offer whose port is ready, and the offers without it. Readiness depends on the port alone, so an
offer never overtakes an older one at its own port (rules R34, R130). -/
def firstReady (busy : Bool) : List OpWord → Option (OpWord × List OpWord)
  | [] => none
  | w :: rest =>
    if laneReady busy w.lane then some (w, rest)
    else
      match firstReady busy rest with
      | some (v, rest') => some (v, w :: rest')
      | none => none

/-- The next step's operation. -/
def fetch (s : State) : Fetched :=
  if s.env.rst then .run .reset { s with env := { s.env with rst := false } }
  else
    match firstReady s.enc.encBusy s.env.pend with
    | none => .quiet
    | some (w, rest) =>
      match decode s.dec.decState w with
      | .error r => .stop (.badWord r)
      | .ok i =>
        if s.hasReset || i == .reset then .run i { s with env := { s.env with pend := rest } }
        else .stop .beforeFirstReset

/-- The environment with a word of the opcode table offered next, the reset pin low, after a first reset. The offer's
`now` is 0, the model's choice (`tableWord`, log entry 12). -/
def State.offerTableWord (s : State) (nbits w : Nat) : State :=
  match tableWord nbits w with
  | some word => { s with env := { rst := false, pend := word :: s.env.pend }, hasReset := true }
  | none => s

end Sys2Proof.Machine
end

