-- ==== Sys2Proof/Machine/Step.lean ====
section
/-! DEFINITION. One step of the machine: one operation (rule R10). -/

namespace Sys2Proof.Machine

/-- One operation of the block, or a step in which nothing offered is enabled (log entry 18). -/
def step (s : State) : Host.Outcome State Fault Refusal :=
  match fetch s with
  | .quiet => .next s.quiet
  | .run i s' => exec i s'
  | .stop r => .refused r

/-- `s` with the operation of a word of the opcode table offered first (log entries 1, 12). -/
def State.withFetchWord (s : State) (nbits w : Nat) : State := s.offerTableWord nbits w

end Sys2Proof.Machine
end

