-- ==== Sys2Proof/Machine/Block.lean ====
section
/-! DEFINITION. The step relation of the block with the configuration as its parameter (rules R7, R10, R22): the
widths of the operands, of the timestamp and of the counters, the markers, the mask and the checksum are all those of
`c`. Every operation takes the proof of `CFG_WF` as an argument (rule R8): a `Cfg` without it is given no meaning (U6).
The machine's operations are the instance at `cfg` with `cfg_wf` (log entry 2). -/

namespace Sys2Proof.Machine

/-- One operation of the block under `c`; `n` is the position from which a `RESET` draws unspecified bytes (log entry
4). -/
def Block.step (c : Cfg) (h : c.WF) (n : Nat) (op : Op c) (b : Block c) : BlockResult c :=
  match op with
  | .accept cmd data => b.accept c h cmd data
  | .emit => b.emit c h
  | .feed v now => b.feed c h v now
  | .reset => .next (Block.reset c h n, BlockOut.idle c)

/-- Operations one after the other under `c`, with what crossed the ports in each; each `RESET` draws four bytes. -/
def Block.run (c : Cfg) (h : c.WF) : Nat → List (Op c) → Block c → Host.Outcome (Block c × List (BlockOut c)) Fault Refusal
  | _, [], b => .next (b, [])
  | n, op :: rest, b =>
    match Block.step c h n op b with
    | .fault f => .fault f
    | .refused q => .refused q
    | .next (b', o) =>
      match Block.run c h (if op = .reset then n + 4 else n) rest b' with
      | .fault f => .fault f
      | .refused q => .refused q
      | .next (b'', os) => .next (b'', o :: os)

/-- The row of the opcode table that an operation is, at the default widths. -/
def Op.instr : Op cfg → Instr
  | .accept cmd data => .encAccept cmd data
  | .emit => .encEmit
  | .feed b now => .feed b now
  | .reset => .reset

/-! The ports that can be read at any time, under any configuration (rules R20, R21). -/

/-- `enc_req_ready = NOT enc_busy` (rule R20). -/
def Block.encReqReady {c : Cfg} (b : Block c) : Bool := !b.enc.encBusy

/-- `tx_valid = enc_busy` (rule R20). -/
def Block.txValid {c : Cfg} (b : Block c) : Bool := b.enc.encBusy

/-- `tx_byte` and `tx_last`: what `ENC.EMIT` would emit, while a byte is offered (rules R20, R132). -/
def Block.txPort (c : Cfg) (_ : c.WF) (b : Block c) : Option TxByte :=
  if b.enc.encBusy then some (b.enc.emit c).2 else none

/-- `rx_ready`, constantly 1 (rules R21, R133). -/
def Block.rxReady {c : Cfg} (_ : Block c) : Bool := true

/-- The status outputs `fe_cnt`, `ce_cnt`, `CNT_W` bits each (rule R21). -/
def Block.counters {c : Cfg} (b : Block c) : BitVec c.CNT_W × BitVec c.CNT_W := (b.dec.feCnt, b.dec.ceCnt)

/-- The status outputs `dec_state`, `dec_len` (rule R21). -/
def Block.decStatus {c : Cfg} (b : Block c) : BitVec 2 × BitVec 3 :=
  (decStateCode b.dec.decState, BitVec.ofNat 3 b.dec.decLen.val)

end Sys2Proof.Machine
end

