-- ==== Sys2Proof/Machine/Ports.lean ====
section
/-! DEFINITION. The output ports that can be read at any time, as functions of the block's state (rules R20, R21,
R93), those of Machine/Block.lean at `cfg`; a port that is not valid has no value (U5). The outputs of one operation
are `State.out`. -/

namespace Sys2Proof.Machine

/-- `enc_req_ready = NOT enc_busy` (rule R20). -/
def encReqReady (s : State) : Bool := s.block.encReqReady

/-- `tx_valid = enc_busy` (rule R20). -/
def txValid (s : State) : Bool := s.block.txValid

/-- `tx_byte` and `tx_last`: what `ENC.EMIT` would emit, while a byte is offered (rules R20, R132). -/
def txPort (s : State) : Option TxByte := s.block.txPort cfg cfg_wf

/-- `rx_ready`, constantly 1 (rules R21, R133). -/
def rxReady (s : State) : Bool := s.block.rxReady

/-- `ev_kind` of the operation just performed (rules R21, R50). -/
def evKind (s : State) : BitVec 2 := evKindCode s.out.ev

/-- `ev_command`, `ev_data`, `ev_timestamp`, valid when `ev_kind = FRAME` (rule R21). -/
def evFrame (s : State) : Option (Frame Config.TS_W) :=
  match s.out.ev with
  | .frame f => some f
  | .none => none
  | .framingError => none
  | .checksumError => none

/-- `enc_rsp` of the operation just performed, valid when it accepted a request (rules R20, R49). -/
def encRsp (s : State) : Option (BitVec 1) := s.out.encRsp.map encRspCode

/-- The status outputs `fe_cnt`, `ce_cnt` (rule R21). -/
def counters (s : State) : BitVec Config.CNT_W × BitVec Config.CNT_W := s.block.counters

/-- The status outputs `dec_state`, `dec_len` (rule R21). -/
def decStatus (s : State) : BitVec 2 × BitVec 3 := s.block.decStatus

end Sys2Proof.Machine
end

