-- ==== Sys2Proof/Machine/Stream.lean ====
section
/-! DEFINITION. Whole streams: the fold of `FEED` (rule R89), the document's decoder with a growable buffer (rule
R17), the bytes a busy encoder emits (rule R63), and a run of operations with what crossed the boundary in each. -/

namespace Sys2Proof.Machine

/-- The event list of one `FEED`: empty for `NONE` (rule R89). -/
def Event.toList {tw : Nat} : Event tw → List (Event tw)
  | .none => []
  | .frame f => [.frame f]
  | .framingError => [.framingError]
  | .checksumError => [.checksumError]

/-- `DECODE_STREAM` (rule R89): each byte with the `now` of its `FEED`; the final state and the events other
than `NONE`, in order. -/
def decodeStream {cw tw : Nat} (c : Cfg) : Dec cw → List (Byte × BitVec tw) →
    Except Fault (Dec cw × List (Event tw))
  | d, [] => .ok (d, [])
  | d, (b, now) :: rest =>
    match d.feed c b now with
    | .error f => .error f
    | .ok (d', e) =>
      match decodeStream c d' rest with
      | .error f => .error f
      | .ok (d'', es) => .ok (d'', e.toList ++ es)

/-- The decoder of the document, with a byte list that grows (`D_u` of rule R17). -/
structure UDec where
  decState : DecState
  ubuf : List Byte
deriving DecidableEq, Repr

/-- A fresh `D_u`. -/
def UDec.reset : UDec := { decState := .idle, ubuf := [] }

/-- The close of `D_u`: exactly four bytes, then the checksum (rule R17). -/
def UDec.close {tw : Nat} (c : Cfg) (now : BitVec tw) (ubuf : List Byte) : Event tw :=
  match ubuf with
  | [b0, b1, b2, ck] =>
    let w : Body := ⟨b0, b1, b2, ck⟩
    if ckFails c w then .checksumError else .frame (unpackFrame w now)
  | _ => .framingError

/-- `FEED` of `D_u` (rule R17). -/
def UDec.feed {tw : Nat} (c : Cfg) (b : Byte) (now : BitVec tw) (d : UDec) : UDec × Event tw :=
  match classify c b, d.decState with
  | .startMarker, _ => ({ decState := .accumulating, ubuf := [] }, .none)
  | .endMarker, .idle => (d, .none)
  | .escMarker, .idle => (d, .none)
  | .literal, .idle => (d, .none)
  | .endMarker, .accumulating => ({ decState := .idle, ubuf := [] }, UDec.close c now d.ubuf)
  | .escMarker, .accumulating => ({ d with decState := .escaped }, .none)
  | .literal, .accumulating => ({ d with ubuf := d.ubuf ++ [b] }, .none)
  | .endMarker, .escaped => ({ decState := .accumulating, ubuf := d.ubuf ++ [xform c b] }, .none)
  | .escMarker, .escaped => ({ decState := .accumulating, ubuf := d.ubuf ++ [xform c b] }, .none)
  | .literal, .escaped => ({ decState := .accumulating, ubuf := d.ubuf ++ [xform c b] }, .none)

/-- The fold of `D_u` over a byte sequence: its final state and its events other than `NONE`. -/
def UDec.stream {tw : Nat} (c : Cfg) : UDec → List (Byte × BitVec tw) → UDec × List (Event tw)
  | u, [] => (u, [])
  | u, (b, now) :: rest =>
    let r := u.feed c b now
    let t := UDec.stream c r.1 rest
    (t.1, r.2.toList ++ t.2)

/-- The relation of rule R17 between the bounded decoder and `D_u`. -/
def UDec.rel {cw : Nat} (d : Dec cw) (u : UDec) : Prop :=
  d.decState = u.decState ∧ d.decLen.val = min u.ubuf.length 5 ∧
    ∀ i, i < min u.ubuf.length 4 → Memory.lookup d.buf i = u.ubuf[i]?

/-- `ENC.EMIT` performed while `enc_busy = 1`, at most `fuel` times: the bytes passed to `TxPut` (rule R63). -/
def emitAll (c : Cfg) : Nat → Enc → Enc × List TxByte
  | 0, e => (e, [])
  | fuel + 1, e =>
    if e.encBusy then
      let r := e.emit c
      let t := emitAll c fuel r.1
      (t.1, r.2 :: t.2)
    else (e, [])

/-- A run of operations: the last state and what crossed the boundary in each, if none stops. -/
def trace : List Instr → State → Option (State × List Outputs)
  | [], s => some (s, [])
  | i :: is, s =>
    match exec i s with
    | .next t =>
      match trace is t with
      | some (t', os) => some (t', t.out :: os)
      | none => none
    | .fault _ => none
    | .refused _ => none

/-- `command` and `data` of an event, for a Frame. -/
def eventFields {tw : Nat} : Event tw → Option (BitVec 4 × BitVec 18)
  | .none => none
  | .frame f => some (f.command, f.data)
  | .framingError => none
  | .checksumError => none

/-- The bytes on TX in a run. -/
def txBytes (os : List Outputs) : List TxByte := os.filterMap (·.tx)

/-- The events of a run, `NONE` left out. -/
def events (os : List Outputs) : List (Event Config.TS_W) := os.flatMap (·.ev.toList)

end Sys2Proof.Machine
end

