-- ==== Sys2Proof/Machine/Script.lean ====
section
/-! DEFINITION. The script notation of rule R54: each line is one operation, offered as one word at a port. -/

namespace Sys2Proof.Machine

/-- One line of a script. -/
inductive ScriptLine where
  | reset
  | enc (cmd : BitVec Config.W_CMD_IN) (data : BitVec Config.W_DATA_IN)
  | emit
  | feed (b : Byte) (t : BitVec Config.TS_W)
deriving DecidableEq, Repr

/-- The offer a line makes. -/
def ScriptLine.word : ScriptLine → OpWord
  | .reset => encode .reset
  | .enc cmd data => encode (.encAccept cmd data)
  | .emit => encode .encEmit
  | .feed b t => ⟨.rx, [b], t⟩

/-- What a line must find (rule R54): `enc` an idle encoder, `emit` a busy one. -/
def ScriptLine.finds (l : ScriptLine) (s : State) : Bool :=
  match l with
  | .reset => true
  | .enc _ _ => !s.enc.encBusy
  | .emit => s.enc.encBusy
  | .feed _ _ => true

/-- `feedseq <bytes> @<t1>..`: each next byte with one more `now` when `rising`, else all with the same. -/
def feedSeq (rising : Bool) (t : BitVec Config.TS_W) : List Byte → List ScriptLine
  | [] => []
  | b :: rest => .feed b t :: feedSeq rising (if rising then t + 1 else t) rest

/-- `emitall`: `emit` repeated until `enc_busy = 0`, at most ten times (rule R45). -/
def emitAllLines (s : State) : List ScriptLine := (emitAll cfg 10 s.enc).2.map fun _ => .emit

/-- `send <command>, <data>`: `enc`, then, when the response is `OK`, `emit` for each byte of the frame. -/
def sendLines (cmd : BitVec Config.W_CMD_IN) (data : BitVec Config.W_DATA_IN) : List ScriptLine :=
  match encodeFrame cfg cmd.toNat data.toNat with
  | some bs => .enc cmd data :: bs.map fun _ => .emit
  | none => [.enc cmd data]

/-- `loop <command>, <data> @<t>`: `send`, then `feedseq` of exactly the bytes emitted. -/
def loopLines (cmd : BitVec Config.W_CMD_IN) (data : BitVec Config.W_DATA_IN) (t : BitVec Config.TS_W) :
    List ScriptLine :=
  match encodeFrame cfg cmd.toNat data.toNat with
  | some bs => sendLines cmd data ++ feedSeq false t bs
  | none => sendLines cmd data

/-- The state with a script offered after what is offered already. -/
def State.offerScript (ls : List ScriptLine) (s : State) : State :=
  { s with env := { s.env with pend := s.env.pend ++ ls.map ScriptLine.word } }

end Sys2Proof.Machine
end

