-- ==== Sys2Proof/Safety.lean ====
section
/-! DEFINITION. What claims are stated in: the invariants of rule R19 with the storage invariant of rules R16 and
R25, the offers that stand at the block's own ports, a safe outcome, and a quiescent state (rule R137). -/

namespace Sys2Proof.Machine

/-- Rule R19 (a), (b), (f), of the encoder. -/
def Enc.Inv (c : Cfg) (e : Enc) : Prop :=
  (e.encBusy = false → e.encIdx.val = 0 ∧ e.encEsc = false) ∧
  (e.encEsc = true → e.encBusy = true ∧ 1 ≤ e.encIdx.val ∧ e.encIdx.val ≤ 4 ∧
    isMarker c (e.encWord.byteAt (e.encIdx.val - 1)) = true) ∧
  (e.encBusy = true → e.encWord.ck = c.CK e.encWord.b0 e.encWord.b1 e.encWord.b2 ∧
    e.encWord.b2.extractLsb' 0 2 = 0#2)

/-- Rules R16 and R25: `BUF` is canonical and every entry below `min(dec_len, 4)` holds a value. -/
def Dec.BufInv {cw : Nat} (d : Dec cw) : Prop :=
  Memory.wf d.buf = true ∧ ∀ i, i < d.decLen.val → i < 4 → (Memory.lookup d.buf i).isSome = true

/-- Rule R19 (d) beside the storage invariant; (c) and (e) are in the types. -/
def Dec.Inv {cw : Nat} (d : Dec cw) : Prop :=
  d.BufInv ∧ (d.decState = .idle → d.decLen.val = 0)

/-- Rule R19 of the block under a configuration. -/
def Block.Inv (c : Cfg) (b : Block c) : Prop := b.enc.Inv c ∧ b.dec.Inv

/-- Rule R19 of the whole block. -/
def State.Inv (s : State) : Prop := s.enc.Inv cfg ∧ s.dec.Inv

/-- The operations of rule R10: `ENC.ACCEPT`, `ENC.EMIT`, `FEED` with its cases, `RESET`; the rest are stages
(rule R51). -/
def isOperation : Instr → Bool
  | .frameNew _ _ => false
  | .pack _ _ => false
  | .cksum _ _ _ => false
  | .stuff _ => false
  | .delimit _ => false
  | .enc _ _ => false
  | .encAccept _ _ => true
  | .encEmit => true
  | .feed _ _ => true
  | .feedStart => true
  | .feedEndIdle => true
  | .feedEscIdle => true
  | .feedLitIdle _ => true
  | .feedEndAcc _ => true
  | .feedEscAcc => true
  | .feedLitAcc _ => true
  | .feedEndEscd => true
  | .feedEscEscd => true
  | .feedLitEscd _ => true
  | .append _ => false
  | .closeLen => false
  | .closeCk => false
  | .unpack _ => false
  | .reset => true

/-- A word that stands at one of the block's ports, not at a stage. -/
def atPort (w : OpWord) : Bool :=
  match w.lane with
  | .rst => true
  | .encReq => true
  | .txReady => true
  | .rx => true
  | .feed => true
  | .stage _ => false

/-- Everything offered stands at the block's own ports. -/
def State.offersAtPorts (s : State) : Prop := ∀ w ∈ s.env.pend, atPort w = true

/-- An outcome that is no fault. -/
def noFault (r : Result) : Prop :=
  match r with
  | .next _ => True
  | .fault _ => False
  | .refused _ => True

/-- What `APPEND(v)` does to the decoder but for `dec_state` (rule R81): below 4 the byte is stored at index
`dec_len` and the length grows by one; from 4 on nothing is stored and the length is 5. The store is said through
the read of every index. -/
def Dec.appended {cw : Nat} (v : Byte) (d d' : Dec cw) : Prop :=
  (d.decLen.val < 4 → d'.decLen.val = d.decLen.val + 1 ∧
    ∀ i, Memory.lookup d'.buf i = if i = d.decLen.val then some v else Memory.lookup d.buf i) ∧
  (4 ≤ d.decLen.val → d'.decLen.val = 5 ∧ d'.buf = d.buf) ∧
  d'.feCnt = d.feCnt ∧ d'.ceCnt = d.ceCnt

/-- `BUF[0..3]` holds these four bytes. -/
def Dec.holds {cw : Nat} (d : Dec cw) (b0 b1 b2 ck : Byte) : Prop :=
  Memory.lookup d.buf 0 = some b0 ∧ Memory.lookup d.buf 1 = some b1 ∧
  Memory.lookup d.buf 2 = some b2 ∧ Memory.lookup d.buf 3 = some ck

/-- The product over GF(2) of `q` and `x^8 + x^2 + x + 1` (rule R57), as 32 bits. -/
def crcMultiple (q : BitVec 24) : BitVec 32 :=
  (List.range 24).foldl (fun acc k => if q.getLsbD k then acc ^^^ (0x107#32 <<< k) else acc) 0#32

/-- The weight of an error pattern: how many bits it flips (rule R9). -/
def weight (e : BitVec 32) : Nat := (List.range 32).countP (e.getLsbD ·)

/-- Rule R137: no frame in flight, no frame open. -/
def State.quiescent (s : State) : Prop := s.enc.encBusy = false ∧ s.dec.decState = .idle

end Sys2Proof.Machine
end

