-- ==== Sys2Proof/Certificates/Slice0/Obligations.lean ====
section
/-! DEFINITION. The statements for the provers. Each docstring names the rule of spec/ it formalises. Where a
statement is about every `Cfg`, it is about the codec's functions, which the machine's meanings call at `cfg`. -/

open Sys2Proof Sys2Proof.Machine

/-! Reset. -/

/-- R23, the table; that `BUF` holds no value is log entry 5. Nothing is said of `enc_word`. -/
def Obligations.ResetLeavesTheTable : Prop :=
  State.reset.enc.encBusy = false ∧ State.reset.enc.encIdx.val = 0 ∧ State.reset.enc.encEsc = false ∧
  State.reset.dec.decState = .idle ∧ State.reset.dec.decLen.val = 0 ∧
  (∀ i, Memory.lookup State.reset.dec.buf i = none) ∧
  State.reset.dec.feCnt = 0#32 ∧ State.reset.dec.ceCnt = 0#32 ∧
  txValid State.reset = false ∧ evKind State.reset = 0#2

/-- R125: the writes of `RESET` in any state, no event and no TX byte; with `rst` high the step is `RESET`
whatever is offered, and none of it is accepted. That what is offered stays offered, and that one `RESET` resets both
blocks at once, is the model's choice (log entry 10). -/
def Obligations.ResetFromAnyState : Prop :=
  (∀ s : State, ∃ t, exec .reset s = .next t ∧
    t.enc.encBusy = false ∧ t.enc.encIdx.val = 0 ∧ t.enc.encEsc = false ∧
    t.dec.decState = .idle ∧ t.dec.decLen.val = 0 ∧ t.dec.feCnt = 0#32 ∧ t.dec.ceCnt = 0#32 ∧
    t.out.ev = .none ∧ t.out.tx = none ∧ t.env = s.env) ∧
  (∀ s : State, s.env.rst = true → ∃ t, step s = .next t ∧
    t.enc.encBusy = false ∧ t.enc.encIdx.val = 0 ∧ t.enc.encEsc = false ∧
    t.dec.decState = .idle ∧ t.dec.decLen.val = 0 ∧ t.dec.feCnt = 0#32 ∧ t.dec.ceCnt = 0#32 ∧
    t.out = Outputs.idle ∧ t.env.pend = s.env.pend)

/-! The encoder. -/

/-- R55: at the port, and over the document's integers. -/
def Obligations.FrameNewValidates : Prop :=
  (∀ (cmd : BitVec 8) (data : BitVec 32) (s : State),
    exec (.frameNew cmd data) s = .next { s with out := { Outputs.idle with
      stage := some (if cmd.toNat ≤ 15 ∧ data.toNat ≤ 262143
        then .frame ⟨cmd.extractLsb' 0 4, data.extractLsb' 0 18, none⟩ else .outOfRange) } }) ∧
  (∀ command data : Int,
    (0 ≤ command ∧ command ≤ 15 ∧ 0 ≤ data ∧ data ≤ 262143 →
      ∃ f, frameNew command data = some f ∧ (f.command.toNat : Int) = command ∧ (f.data.toNat : Int) = data ∧
        f.timestamp = none) ∧
    (¬ (0 ≤ command ∧ command ≤ 15 ∧ 0 ≤ data ∧ data ≤ 262143) → frameNew command data = none))

/-- R49: a negative two's-complement number at a port is refused like any other out-of-range value. -/
def Obligations.NegativeRequestRefused : Prop :=
  ∀ (v : Int) (cmd : BitVec 8) (data : BitVec 32) (s : State),
    s.enc.encBusy = false → s.enc.encEsc = false →
    (-128 ≤ v ∧ v < 0 → exec (.encAccept (BitVec.ofInt 8 v) data) s
      = .next { s with out := { Outputs.idle with encRsp := some .outOfRange } }) ∧
    (-2147483648 ≤ v ∧ v < 0 → exec (.encAccept cmd (BitVec.ofInt 32 v)) s
      = .next { s with out := { Outputs.idle with encRsp := some .outOfRange } })

/-- R46: where each bit of `command` and `data` goes, and the pad. -/
def Obligations.PackLayout : Prop :=
  ∀ (command : BitVec 4) (data : BitVec 18) (s : State),
    exec (.pack command data) s = .next { s with out := { Outputs.idle with stage := some (.bytes
      [command ++ data.extractLsb' 14 4, data.extractLsb' 6 8, data.extractLsb' 0 6 ++ 0#2]) } }

/-- R56: `PACK` is injective. -/
def Obligations.PackInjective : Prop :=
  ∀ (c₁ c₂ : BitVec 4) (d₁ d₂ : BitVec 18), pack c₁ d₁ = pack c₂ d₂ → c₁ = c₂ ∧ d₁ = d₂

/-- R57: `CKSUM` gives the CRC of its three bytes and touches nothing; a body is valid exactly when the CRC over
all four bytes is 0. -/
def Obligations.CksumGivesTheCrc : Prop :=
  (∀ (b0 b1 b2 : Byte) (s : State),
    exec (.cksum b0 b1 b2) s = .next { s with out := { Outputs.idle with
      stage := some (.byte (crc8Update (crc8Update (crc8Update 0x00#8 b0) b1) b2)) } }) ∧
  (∀ b0 b1 b2 ck : Byte, crc8Update (cksum cfg b0 b1 b2) ck = 0#8 ↔ cksum cfg b0 b1 b2 = ck)

/-- R57: the CRC is linear, and it is the remainder of the polynomial division it is named after: the checked body
is a multiple of `x^8 + x^2 + x + 1`. -/
def Obligations.CksumIsPolynomialRemainder : Prop :=
  (∀ a0 a1 a2 b0 b1 b2 : Byte,
    crc8 (a0 ^^^ b0) (a1 ^^^ b1) (a2 ^^^ b2) = crc8 a0 a1 a2 ^^^ crc8 b0 b1 b2) ∧
  (∀ b0 b1 b2 : Byte, ∃ q : BitVec 24, body32 b0 b1 b2 (crc8 b0 b1 b2) = crcMultiple q)

/-- R9: the default checksum detects every single-bit error, every error of weight 1 to 3 and every burst of
length at most 8. -/
def Obligations.DefaultChecksumDetects : Prop :=
  cfg.CkSbe ∧
  (∀ (b0 b1 b2 : Byte) (e : BitVec 32), 1 ≤ weight e → weight e ≤ 3 →
    ¬ cfg.bodyChecks (body32 b0 b1 b2 (crc8 b0 b1 b2) ^^^ e)) ∧
  (∀ (b0 b1 b2 : Byte) (p : Byte) (k : Nat), p.zeroExtend 32 <<< k ≠ 0#32 →
    ¬ cfg.bodyChecks (body32 b0 b1 b2 (crc8 b0 b1 b2) ^^^ (p.zeroExtend 32 <<< k)))

/-- R58: the stuffed sequence, its length, and that under `CFG_WF` it is free of unescaped markers. -/
def Obligations.StuffEscapesMarkers : Prop :=
  (∀ (body : List Byte) (s : State),
    exec (.stuff body) s = .next { s with out := { Outputs.idle with stage := some (.bytes
      (body.flatMap fun v =>
        if v = 0x7E#8 ∨ v = 0x7F#8 ∨ v = 0x7D#8 then [0x7D#8, v ^^^ 0x20#8] else [v])) } }) ∧
  (∀ (c : Cfg) (body : List Byte),
    (stuff c body).length = body.length + body.countP (fun v => v ∈ c.markers)) ∧
  (∀ (c : Cfg) (body : List Byte), c.WF →
    c.START ∉ stuff c body ∧ c.END ∉ stuff c body ∧
    ∀ i, (stuff c body)[i]? = some c.ESC → ∃ v, (stuff c body)[i + 1]? = some v ∧ v ∉ c.markers)

/-- R59: one `START`, the stuffed body, one `END`. -/
def Obligations.DelimitFrames : Prop :=
  ∀ (sbody : List Byte) (s : State),
    exec (.delimit sbody) s = .next { s with out := { Outputs.idle with stage := some (.bytes
      (0x7E#8 :: sbody ++ [0x7F#8])) } }

/-- R60: `ENC` is the four stages one after the other, or `OutOfRange` and no bytes. -/
def Obligations.EncIsTheStagesInOrder : Prop :=
  ∀ (cmd : BitVec 8) (data : BitVec 32) (s : State),
    (cmd.toNat ≤ 15 ∧ data.toNat ≤ 262143 → ∃ b0 b1 b2 ck sbody f,
      exec (.pack (cmd.extractLsb' 0 4) (data.extractLsb' 0 18)) s = .next (s.giveStage (.bytes [b0, b1, b2])) ∧
      exec (.cksum b0 b1 b2) s = .next (s.giveStage (.byte ck)) ∧
      exec (.stuff [b0, b1, b2, ck]) s = .next (s.giveStage (.bytes sbody)) ∧
      exec (.delimit sbody) s = .next (s.giveStage (.bytes f)) ∧
      exec (.enc cmd data) s = .next (s.giveStage (.bytes f))) ∧
    (¬ (cmd.toNat ≤ 15 ∧ data.toNat ≤ 262143) → exec (.enc cmd data) s = .next (s.giveStage .outOfRange))

/-- R45: the length of a frame under any `Cfg`, and under the default one. -/
def Obligations.FrameLengthBounds : Prop :=
  (∀ (c : Cfg) (command : BitVec 4) (data : BitVec 18),
    (frameBytes c command data).length
      = 6 + (bodyOf c command data).toList.countP (fun v => v ∈ c.markers) ∧
    6 ≤ (frameBytes c command data).length ∧ (frameBytes c command data).length ≤ 10) ∧
  (∀ (command : BitVec 4) (data : BitVec 18), (frameBytes cfg command data).length ≤ 9)

/-- R60: `ENC` is injective on valid Frames, under any `Cfg`. -/
def Obligations.EncodingInjective : Prop :=
  ∀ (c : Cfg) (c₁ c₂ : BitVec 4) (d₁ d₂ : BitVec 18),
    frameBytes c c₁ d₁ = frameBytes c c₂ d₂ → c₁ = c₂ ∧ d₁ = d₂

/-- R64: marker freedom, for every `Cfg` with `CFG_WF`. -/
def Obligations.FramesAreMarkerFree : Prop :=
  ∀ (c : Cfg) (command : BitVec 4) (data : BitVec 18), c.WF →
    ∃ sb, frameBytes c command data = [c.START] ++ sb ++ [c.END] ∧
      (∀ v ∈ sb, v ≠ c.START ∧ v ≠ c.END) ∧
      (∀ i, sb[i]? = some c.ESC → ∃ v, sb[i + 1]? = some v ∧
        (v = c.START ^^^ c.MASK ∨ v = c.END ^^^ c.MASK ∨ v = c.ESC ^^^ c.MASK) ∧ v ∉ c.markers) ∧
      sb.getLast? ≠ some c.ESC

/-- R61: in an idle encoder a request in range is accepted, one out of range is answered and changes nothing. That
`enc_esc` is 0 in an idle encoder is R19(a). -/
def Obligations.EncAcceptAnswers : Prop :=
  ∀ (cmd : BitVec 8) (data : BitVec 32) (s : State), s.enc.encBusy = false → s.enc.encEsc = false →
    (cmd.toNat ≤ 15 ∧ data.toNat ≤ 262143 →
      ∃ b0 b1 b2 : Byte, (b0 = cmd.extractLsb' 0 4 ++ data.extractLsb' 14 4 ∧ b1 = data.extractLsb' 6 8 ∧
        b2 = data.extractLsb' 0 6 ++ 0#2) ∧
      exec (.encAccept cmd data) s = .next { s with
        enc := { encWord := ⟨b0, b1, b2, crc8 b0 b1 b2⟩, encIdx := 0, encEsc := false, encBusy := true }
        out := { Outputs.idle with encRsp := some .ok } }) ∧
    (¬ (cmd.toNat ≤ 15 ∧ data.toNat ≤ 262143) →
      exec (.encAccept cmd data) s = .next { s with out := { Outputs.idle with encRsp := some .outOfRange } })

/-- R61, R62, R130 with log entry 8: an operation that is not enabled changes nothing of the block and gives no
output; the request waits. -/
def Obligations.DisabledOperationsWait : Prop :=
  (∀ (cmd : BitVec 8) (data : BitVec 32) (s : State), s.enc.encBusy = true →
    exec (.encAccept cmd data) s = .next { s with out := Outputs.idle }) ∧
  (∀ s : State, s.enc.encBusy = false → exec .encEmit s = .next { s with out := Outputs.idle })

/-- R62: the byte and the sequencer's move at each position. -/
def Obligations.EncEmitSequence : Prop :=
  ∀ s : State, s.enc.encBusy = true →
    (s.enc.encIdx.val = 0 → exec .encEmit s = .next { s with
      enc := { s.enc with encIdx := 1 }, out := { Outputs.idle with tx := some ⟨0x7E#8, false⟩ } }) ∧
    (s.enc.encIdx.val = 5 → exec .encEmit s = .next { s with
      enc := { s.enc with encIdx := 0, encEsc := false, encBusy := false }
      out := { Outputs.idle with tx := some ⟨0x7F#8, true⟩ } }) ∧
    (∀ v, 1 ≤ s.enc.encIdx.val → s.enc.encWord.toList[s.enc.encIdx.val - 1]? = some v →
      ∃ next : Fin 6, (s.enc.encIdx.val ≤ 4 → next.val = s.enc.encIdx.val + 1) ∧
      (s.enc.encEsc = true → exec .encEmit s = .next { s with
        enc := { s.enc with encEsc := false, encIdx := next }
        out := { Outputs.idle with tx := some ⟨v ^^^ 0x20#8, false⟩ } }) ∧
      (s.enc.encEsc = false → v = 0x7E#8 ∨ v = 0x7F#8 ∨ v = 0x7D#8 → exec .encEmit s = .next { s with
        enc := { s.enc with encEsc := true }, out := { Outputs.idle with tx := some ⟨0x7D#8, false⟩ } }) ∧
      (s.enc.encEsc = false → ¬ (v = 0x7E#8 ∨ v = 0x7F#8 ∨ v = 0x7D#8) → exec .encEmit s = .next { s with
        enc := { s.enc with encIdx := next }, out := { Outputs.idle with tx := some ⟨v, false⟩ } }))

/-- R63, for every `Cfg`: after an accepted request the emitted bytes are `ENC(c, d)`, `last` exactly on the final
one, at most ten of them, and the encoder is idle again; after a refused one it has not moved. -/
def Obligations.StreamingEqualsFunction : Prop :=
  ∀ (c : Cfg) (wc wd : Nat) (cmd : BitVec wc) (data : BitVec wd) (e : Enc),
    e.encBusy = false → e.Inv c →
    (∀ bs, encodeFrame c cmd.toNat data.toNat = some bs →
      (e.accept c cmd data).2 = .ok ∧
      (emitAll c 10 (e.accept c cmd data).1).2 = bs.dropLast.map (⟨·, false⟩) ++ [⟨c.END, true⟩] ∧
      bs.getLast? = some c.END ∧
      (emitAll c 10 (e.accept c cmd data).1).1.encBusy = false ∧
      (emitAll c 10 (e.accept c cmd data).1).1.Inv c) ∧
    (encodeFrame c cmd.toNat data.toNat = none → e.accept c cmd data = (e, .outOfRange))

/-! The decoder, case by case. -/

/-- R52, R70: `FEED` is exactly one of the ten cases. -/
def Obligations.FeedIsOneOfTenCases : Prop :=
  ∀ (b : Byte) (now : BitVec 64) (s : State),
    (b = 0x7E#8 → exec (.feed b now) s = exec .feedStart s) ∧
    (b = 0x7F#8 → s.dec.decState = .idle → exec (.feed b now) s = exec .feedEndIdle s) ∧
    (b = 0x7D#8 → s.dec.decState = .idle → exec (.feed b now) s = exec .feedEscIdle s) ∧
    (b = 0x7F#8 → s.dec.decState = .accumulating → exec (.feed b now) s = exec (.feedEndAcc now) s) ∧
    (b = 0x7D#8 → s.dec.decState = .accumulating → exec (.feed b now) s = exec .feedEscAcc s) ∧
    (b = 0x7F#8 → s.dec.decState = .escaped → exec (.feed b now) s = exec .feedEndEscd s) ∧
    (b = 0x7D#8 → s.dec.decState = .escaped → exec (.feed b now) s = exec .feedEscEscd s) ∧
    (b ≠ 0x7E#8 → b ≠ 0x7F#8 → b ≠ 0x7D#8 →
      (s.dec.decState = .idle → exec (.feed b now) s = exec (.feedLitIdle b) s) ∧
      (s.dec.decState = .accumulating → exec (.feed b now) s = exec (.feedLitAcc b) s) ∧
      (s.dec.decState = .escaped → exec (.feed b now) s = exec (.feedLitEscd b) s))

/-- R70, R90, R133: in every state that meets R19 and the storage invariant, `FEED` completes on every byte, moves
`dec_state` and `dec_len` by the transition table, and leaves the encoder and the environment alone. -/
def Obligations.FeedFollowsTheTable : Prop :=
  ∀ (b : Byte) (now : BitVec 64) (s : State), s.dec.Inv → ∃ t, exec (.feed b now) s = .next t ∧
    t.enc = s.enc ∧ t.env = s.env ∧ t.draws = s.draws ∧ t.hasReset = s.hasReset ∧
    t.out.encRsp = none ∧ t.out.tx = none ∧ t.out.stage = none ∧
    (b = 0x7E#8 → t.dec.decState = .accumulating ∧ t.dec.decLen.val = 0 ∧ t.out.ev = .none) ∧
    (b ≠ 0x7E#8 → s.dec.decState = .idle → t.dec = s.dec ∧ t.out.ev = .none) ∧
    (b = 0x7F#8 → s.dec.decState = .accumulating →
      t.dec.decState = .idle ∧ t.dec.decLen.val = 0 ∧ t.out.ev ≠ .none) ∧
    (b = 0x7D#8 → s.dec.decState = .accumulating → t.dec = { s.dec with decState := .escaped } ∧ t.out.ev = .none) ∧
    (b ∉ [0x7E#8, 0x7F#8, 0x7D#8] → s.dec.decState = .accumulating →
      t.dec.decState = .accumulating ∧ s.dec.appended b t.dec ∧ t.out.ev = .none) ∧
    (b ≠ 0x7E#8 → s.dec.decState = .escaped →
      t.dec.decState = .accumulating ∧ s.dec.appended (b ^^^ 0x20#8) t.dec ∧ t.out.ev = .none)

/-- R71: `START` in any state; `BUF` and the counters keep their values, no event. -/
def Obligations.FeedStartOpensAFrame : Prop :=
  ∀ s : State, exec .feedStart s = .next { s with
    dec := { s.dec with decLen := 0, decState := .accumulating }, out := { Outputs.idle with ev := .none } }

/-- R72, R73, R74: in `IDLE` everything but `START` is dropped. -/
def Obligations.FeedIdleDrops : Prop :=
  ∀ s : State, s.dec.decState = .idle →
    exec .feedEndIdle s = .next { s with out := { Outputs.idle with ev := .none } } ∧
    exec .feedEscIdle s = .next { s with out := { Outputs.idle with ev := .none } } ∧
    ∀ b : Byte, b ∉ [0x7E#8, 0x7F#8, 0x7D#8] →
      exec (.feedLitIdle b) s = .next { s with out := { Outputs.idle with ev := .none } }

/-- R76: `ESC` while accumulating only moves to `ESCAPED`. -/
def Obligations.FeedEscEscapes : Prop :=
  ∀ s : State, s.dec.decState = .accumulating →
    exec .feedEscAcc s = .next { s with
      dec := { s.dec with decState := .escaped }, out := { Outputs.idle with ev := .none } }

/-- R77: a literal while accumulating is appended as it is. -/
def Obligations.FeedLiteralAppends : Prop :=
  ∀ (b : Byte) (s : State), s.dec.decState = .accumulating → b ∉ [0x7E#8, 0x7F#8, 0x7D#8] →
    ∃ d', exec (.feedLitAcc b) s = .next { s with dec := d', out := { Outputs.idle with ev := .none } } ∧
      d'.decState = .accumulating ∧ s.dec.appended b d'

/-- R78, R79, R80: in `ESCAPED` any byte but `START` is un-transformed and appended; `END` does not close. -/
def Obligations.FeedEscapedDestuffs : Prop :=
  ∀ s : State, s.dec.decState = .escaped →
    (∃ d', exec .feedEndEscd s = .next { s with dec := d', out := { Outputs.idle with ev := .none } } ∧
      d'.decState = .accumulating ∧ s.dec.appended (0x7F#8 ^^^ 0x20#8) d') ∧
    (∃ d', exec .feedEscEscd s = .next { s with dec := d', out := { Outputs.idle with ev := .none } } ∧
      d'.decState = .accumulating ∧ s.dec.appended (0x7D#8 ^^^ 0x20#8) d') ∧
    (∀ b : Byte, b ∉ [0x7E#8, 0x7F#8, 0x7D#8] →
      ∃ d', exec (.feedLitEscd b) s = .next { s with dec := d', out := { Outputs.idle with ev := .none } } ∧
        d'.decState = .accumulating ∧ s.dec.appended (b ^^^ 0x20#8) d')

/-- R75, R82, R84, R112: the three outcomes of the close, the length tested first; the errors' entry is R113. -/
def Obligations.FeedEndCloses : Prop :=
  ∀ (now : BitVec 64) (s : State), s.dec.decState = .accumulating →
    (s.dec.decLen.val ≠ 4 → ∃ n : BitVec 32, n.toNat = min (s.dec.feCnt.toNat + 1) (2 ^ 32 - 1) ∧
      exec (.feedEndAcc now) s = .next { s with
        dec := { s.dec with decState := .idle, decLen := 0, feCnt := n }
        out := { Outputs.idle with ev := .framingError } }) ∧
    (∀ b0 b1 b2 ck, s.dec.decLen.val = 4 → s.dec.holds b0 b1 b2 ck →
      (crc8 b0 b1 b2 ≠ ck → ∃ n : BitVec 32, n.toNat = min (s.dec.ceCnt.toNat + 1) (2 ^ 32 - 1) ∧
        exec (.feedEndAcc now) s = .next { s with
          dec := { s.dec with decState := .idle, decLen := 0, ceCnt := n }
          out := { Outputs.idle with ev := .checksumError } }) ∧
      (crc8 b0 b1 b2 = ck → exec (.feedEndAcc now) s = .next { s with
        dec := { s.dec with decState := .idle, decLen := 0 }
        out := { Outputs.idle with ev := .frame ⟨b0.extractLsb' 4 4,
          b0.extractLsb' 0 4 ++ b1 ++ b2.extractLsb' 2 6, some now⟩ } }))

/-! The stages of the decoder, standing alone (log entry 6). -/

/-- R81: `APPEND`. -/
def Obligations.AppendStoresAtLength : Prop :=
  ∀ (v : Byte) (s : State), ∃ d', exec (.append v) s = .next { s with
      dec := d', out := { Outputs.idle with ev := .none } } ∧
    d'.decState = s.dec.decState ∧ s.dec.appended v d'

/-- R82: `CLOSE.LEN` counts and raises when the length is not 4, and passes when it is. -/
def Obligations.CloseLenTestsLength : Prop :=
  ∀ s : State,
    (s.dec.decLen.val ≠ 4 → ∃ n : BitVec 32, n.toNat = min (s.dec.feCnt.toNat + 1) (2 ^ 32 - 1) ∧
      exec .closeLen s = .next { s with
        dec := { s.dec with feCnt := n }, out := { Outputs.idle with ev := .framingError } }) ∧
    (s.dec.decLen.val = 4 → exec .closeLen s = .next { s with out := { Outputs.idle with stage := some .passed } })

/-- R83: `CLOSE.CK` at length 4 counts and raises on a mismatch, and passes on a match. -/
def Obligations.CloseCkTestsChecksum : Prop :=
  ∀ (s : State) (b0 b1 b2 ck : Byte), s.dec.decLen.val = 4 → s.dec.holds b0 b1 b2 ck →
    (crc8 b0 b1 b2 ≠ ck → ∃ n : BitVec 32, n.toNat = min (s.dec.ceCnt.toNat + 1) (2 ^ 32 - 1) ∧
      exec .closeCk s = .next { s with
        dec := { s.dec with ceCnt := n }, out := { Outputs.idle with ev := .checksumError } }) ∧
    (crc8 b0 b1 b2 = ck → exec .closeCk s = .next { s with out := { Outputs.idle with stage := some .passed } })

/-- R84, R47: `UNPACK` at length 4 with a matching checksum emits the Frame and changes no state. -/
def Obligations.UnpackEmitsTheFrame : Prop :=
  ∀ (now : BitVec 64) (s : State) (b0 b1 b2 ck : Byte), s.dec.decLen.val = 4 → s.dec.holds b0 b1 b2 ck →
    crc8 b0 b1 b2 = ck →
    exec (.unpack now) s = .next { s with out := { Outputs.idle with ev := .frame ⟨b0.extractLsb' 4 4,
      b0.extractLsb' 0 4 ++ b1 ++ b2.extractLsb' 2 6, some now⟩ } }

/-- R52, R83, R84, U4 with log entries 6, 7, 13: where an instruction's rule says it does not stand, it is refused
by name. -/
def Obligations.GuardsRefuseByName : Prop :=
  ∀ s : State,
    (s.dec.decState ≠ .idle → exec .feedEndIdle s = .refused .caseNotSelected ∧
      exec .feedEscIdle s = .refused .caseNotSelected ∧
      ∀ b, exec (.feedLitIdle b) s = .refused .caseNotSelected) ∧
    (s.dec.decState ≠ .accumulating → (∀ now, exec (.feedEndAcc now) s = .refused .caseNotSelected) ∧
      exec .feedEscAcc s = .refused .caseNotSelected ∧
      ∀ b, exec (.feedLitAcc b) s = .refused .caseNotSelected) ∧
    (s.dec.decState ≠ .escaped → exec .feedEndEscd s = .refused .caseNotSelected ∧
      exec .feedEscEscd s = .refused .caseNotSelected ∧
      ∀ b, exec (.feedLitEscd b) s = .refused .caseNotSelected) ∧
    (∀ b ∈ [0x7E#8, 0x7F#8, 0x7D#8], exec (.feedLitIdle b) s = .refused .caseNotSelected ∧
      exec (.feedLitAcc b) s = .refused .caseNotSelected ∧
      exec (.feedLitEscd b) s = .refused .caseNotSelected) ∧
    (s.dec.decLen.val ≠ 4 → exec .closeCk s = .refused .stageNotReached ∧
      ∀ now, exec (.unpack now) s = .refused .stageNotReached) ∧
    (∀ b0 b1 b2 ck now, s.dec.decLen.val = 4 → s.dec.holds b0 b1 b2 ck → crc8 b0 b1 b2 ≠ ck →
      exec (.unpack now) s = .refused .stageNotReached) ∧
    (s.enc.encBusy = false → s.enc.encEsc = true →
      ∀ cmd data, exec (.encAccept cmd data) s = .refused .unreachable)

/-! The decoder, laws. -/

/-- R48: the pad bits are ignored: two checked bodies that differ in them (and in the checksum that goes with it)
close to the same Frame. -/
def Obligations.PadBitsIgnored : Prop :=
  ∀ (now : BitVec 64) (s t : State) (b0 b1 : Byte) (hi : BitVec 6) (p q : BitVec 2),
    s.dec.decState = .accumulating → t.dec.decState = .accumulating →
    s.dec.decLen.val = 4 → t.dec.decLen.val = 4 →
    s.dec.holds b0 b1 (hi ++ p) (crc8 b0 b1 (hi ++ p)) → t.dec.holds b0 b1 (hi ++ q) (crc8 b0 b1 (hi ++ q)) →
    ∃ s' t' f, exec (.feedEndAcc now) s = .next s' ∧ exec (.feedEndAcc now) t = .next t' ∧
      s'.out.ev = .frame f ∧ t'.out.ev = .frame f

/-- R85: only an `END` fed while accumulating gives an event, and it always gives one. -/
def Obligations.EventsComeFromCloses : Prop :=
  ∀ (b : Byte) (now : BitVec 64) (s t : State), exec (.feed b now) s = .next t →
    (t.out.ev ≠ .none ↔ b = 0x7F#8 ∧ s.dec.decState = .accumulating)

/-- R18: over every instruction but `RESET`, a counter changes exactly where its error is raised, by one, and
saturates. -/
def Obligations.CountersCountTheirErrors : Prop :=
  ∀ (i : Instr) (s t : State), i ≠ .reset → exec i s = .next t →
    t.dec.feCnt.toNat = (if t.out.ev = .framingError then min (s.dec.feCnt.toNat + 1) (2 ^ 32 - 1)
      else s.dec.feCnt.toNat) ∧
    t.dec.ceCnt.toNat = (if t.out.ev = .checksumError then min (s.dec.ceCnt.toNat + 1) (2 ^ 32 - 1)
      else s.dec.ceCnt.toNat)

/-- R17: from reset the bounded decoder and the document's decoder with a growable buffer give the same events on
every stream, and stand in the relation of R17 after it. -/
def Obligations.BoundedEqualsGrowable : Prop :=
  ∀ (c : Cfg) (cw tw : Nat) (xs : List (Byte × BitVec tw)), ∃ d : Dec cw,
    decodeStream c (Dec.reset cw) xs = .ok (d, (UDec.stream c UDec.reset xs).2) ∧
    UDec.rel d (UDec.stream c UDec.reset xs).1

/-- R86: the round-trip law, for every `Cfg` with `CFG_WF`, every Frame, every decoder state and all times: no event
before the last byte, the Frame at it. -/
def Obligations.RoundTripLaw : Prop :=
  ∀ (c : Cfg) (cw tw : Nat) (command : BitVec 4) (data : BitVec 18) (d : Dec cw)
    (nows : List (BitVec tw)) (last : BitVec tw), c.WF →
    (frameBytes c command data).length = nows.length + 1 →
    ∃ d₁ d₂ : Dec cw,
      decodeStream c d ((frameBytes c command data).dropLast.zip nows) = .ok (d₁, []) ∧
      decodeStream c d ((frameBytes c command data).zip (nows ++ [last]))
        = .ok (d₂, [.frame ⟨command, data, some last⟩]) ∧
      d₂.decState = .idle ∧ d₂.decLen.val = 0 ∧ d₂.feCnt = d.feCnt ∧ d₂.ceCnt = d.ceCnt

/-- R87(a): `START` forgets: whatever the two states were, the events, the state and the reachable storage after it
are the same, and the counters differ by what they differed by. -/
def Obligations.StartForgetsThePast : Prop :=
  ∀ (c : Cfg) (cw tw : Nat) (d₁ d₂ : Dec cw) (now : BitVec tw) (xs : List (Byte × BitVec tw)),
    ∃ (d₁' d₂' : Dec cw) (es : List (Event tw)),
      decodeStream c d₁ ((c.START, now) :: xs) = .ok (d₁', es) ∧
      decodeStream c d₂ ((c.START, now) :: xs) = .ok (d₂', es) ∧
      d₁'.decState = d₂'.decState ∧ d₁'.decLen = d₂'.decLen ∧
      (∀ i, i < d₁'.decLen.val → i < 4 → Memory.lookup d₁'.buf i = Memory.lookup d₂'.buf i) ∧
      (d₁.feCnt = d₂.feCnt → d₁'.feCnt = d₂'.feCnt) ∧ (d₁.ceCnt = d₂.ceCnt → d₁'.ceCnt = d₂'.ceCnt)

/-- R87(b), with the precision of C4: after any garbage the next frame decodes; garbage without `END` or without
`START` gives no event of its own. -/
def Obligations.GarbagePrefixRecovers : Prop :=
  ∀ (c : Cfg) (cw tw : Nat) (g : List (Byte × BitVec tw)) (command : BitVec 4) (data : BitVec 18)
    (nows : List (BitVec tw)) (last : BitVec tw), c.WF →
    (frameBytes c command data).length = nows.length + 1 →
    ∃ (dg d' : Dec cw) (eg : List (Event tw)),
      decodeStream c (Dec.reset cw) g = .ok (dg, eg) ∧
      decodeStream c (Dec.reset cw) (g ++ (frameBytes c command data).zip (nows ++ [last]))
        = .ok (d', eg ++ [.frame ⟨command, data, some last⟩]) ∧
      d'.decState = .idle ∧
      ((∀ x ∈ g, x.1 ≠ c.START) ∨ (∀ x ∈ g, x.1 ≠ c.END) → eg = [])

/-- R88(A): for every `Cfg` with `CFG_WF` and `CK_SBE`, one flipped bit in the stuffed body that makes no marker and
hits no `ESC` gives exactly one `CHECKSUM_ERROR`. -/
def Obligations.BodyBitFlipIsChecksumError : Prop :=
  ∀ (c : Cfg) (cw tw : Nat) (command : BitVec 4) (data : BitVec 18) (i : Nat) (v : Byte) (k : Fin 8)
    (nows : List (BitVec tw)), c.WF → c.CkSbe →
    (frameBytes c command data).length = nows.length →
    1 ≤ i → i + 1 < (frameBytes c command data).length → (frameBytes c command data)[i]? = some v →
    v ≠ c.ESC → v ^^^ BitVec.twoPow 8 k ∉ c.markers →
    ∃ d' : Dec cw,
      decodeStream c (Dec.reset cw) (((frameBytes c command data).set i (v ^^^ BitVec.twoPow 8 k)).zip nows)
        = .ok (d', [.checksumError]) ∧ d'.decState = .idle

/-- R88(B): under the default `Cfg` no single flipped bit of any byte of a canonical frame ever yields a Frame, and it
yields at most one event. -/
def Obligations.SingleBitFlipNeverAFrame : Prop :=
  ∀ (command : BitVec 4) (data : BitVec 18) (i : Nat) (v : Byte) (k : Fin 8) (nows : List (BitVec 64)),
    (frameBytes cfg command data).length = nows.length → (frameBytes cfg command data)[i]? = some v →
    ∃ (d' : Dec 32) (es : List (Event 64)),
      decodeStream cfg (Dec.reset 32)
        (((frameBytes cfg command data).set i (v ^^^ BitVec.twoPow 8 k)).zip nows) = .ok (d', es) ∧
      es.length ≤ 1 ∧ ∀ f, .frame f ∉ es

/-- R34, R131: frames sent one after the other, with anything but `START` between them, are delivered in order and
nothing else is. -/
def Obligations.FramesDeliveredInOrder : Prop :=
  ∀ (c : Cfg) (cw tw : Nat) (fs : List (List Byte × BitVec 4 × BitVec 18)) (d : Dec cw) (nows : List (BitVec tw)),
    c.WF → d.decState = .idle → (∀ f ∈ fs, c.START ∉ f.1) →
    (fs.flatMap fun f => f.1 ++ frameBytes c f.2.1 f.2.2).length = nows.length →
    ∃ (d' : Dec cw) (es : List (Event tw)),
      decodeStream c d ((fs.flatMap fun f => f.1 ++ frameBytes c f.2.1 f.2.2).zip nows) = .ok (d', es) ∧
      es.map eventFields = fs.map (fun f => some f.2) ∧ d'.decState = .idle

/-- R63, R86 on the machine: the bytes an accepted request puts on TX, fed to a decoder in whatever state, give
exactly that Frame, and leave both blocks idle. The emissions after the `END` are not enabled; that they complete with
no output is log entry 8. -/
def Obligations.LoopbackDeliversTheFrame : Prop :=
  ∀ (cmd : BitVec 8) (data : BitVec 32) (now : BitVec 64) (s : State),
    s.enc.encBusy = false → s.enc.encEsc = false → cmd.toNat ≤ 15 → data.toNat ≤ 262143 →
    ∃ s₁ os₁ s₂ os₂,
      trace (.encAccept cmd data :: List.replicate 10 .encEmit) s = some (s₁, os₁) ∧ s₁.dec = s.dec ∧
      trace ((txBytes os₁).map fun t => .feed t.byte now) s₁ = some (s₂, os₂) ∧
      events os₂ = [.frame ⟨cmd.extractLsb' 0 4, data.extractLsb' 0 18, some now⟩] ∧
      s₂.quiescent ∧ s₂.dec.feCnt = s.dec.feCnt ∧ s₂.dec.ceCnt = s.dec.ceCnt

/-- R90: from reset exactly the 13 control states are reached. -/
def Obligations.ThirteenControlStates : Prop :=
  (∀ (st : DecState) (n : Fin 6), (st = .idle → n = 0) → ∃ (xs : List (Byte × BitVec 64)) (d : Dec 32) (es : _),
    decodeStream cfg (Dec.reset 32) xs = .ok (d, es) ∧ d.decState = st ∧ d.decLen = n) ∧
  (∀ (xs : List (Byte × BitVec 64)) (d : Dec 32) (es : List (Event 64)),
    decodeStream cfg (Dec.reset 32) xs = .ok (d, es) → d.decState = .idle → d.decLen = 0)

/-! The whole machine. -/

/-- R24, R22: which block an instruction can touch; only `RESET` touches both, and no instruction touches the
environment's offers. -/
def Obligations.BlocksAreIndependent : Prop :=
  ∀ (i : Instr) (s t : State), i ≠ .reset → exec i s = .next t →
    t.env = s.env ∧ t.draws = s.draws ∧ t.hasReset = s.hasReset ∧
    ((∀ cmd data, i ≠ .encAccept cmd data) → i ≠ .encEmit → t.enc = s.enc) ∧
    ((∃ cmd data, i = .encAccept cmd data) ∨ i = .encEmit ∨ (∃ cmd data, i = .frameNew cmd data) ∨
      (∃ command data, i = .pack command data) ∨ (∃ b0 b1 b2, i = .cksum b0 b1 b2) ∨ (∃ bs, i = .stuff bs) ∨
      (∃ bs, i = .delimit bs) ∨ (∃ cmd data, i = .enc cmd data) → t.dec = s.dec)

/-- R24: an encoder operation and a `FEED` commute: same final blocks, same outputs. -/
def Obligations.BlocksCommute : Prop :=
  ∀ (i : Instr) (b : Byte) (now : BitVec 64) (s s₁ s₂ : State),
    (i = .encEmit ∨ ∃ cmd data, i = .encAccept cmd data) →
    exec i s = .next s₁ → exec (.feed b now) s = .next s₂ →
    ∃ t₁ t₂, exec (.feed b now) s₁ = .next t₁ ∧ exec i s₂ = .next t₂ ∧
      t₁.enc = t₂.enc ∧ t₁.dec = t₂.dec ∧ t₁.out = s₂.out ∧ t₂.out = s₁.out

/-- R19 holds after `RESET`, and so it does under every `Cfg` with `CFG_WF` (R8). -/
def Obligations.InvariantsHoldAtReset : Prop :=
  State.reset.Inv ∧ State.reset.offersAtPorts ∧ ∀ (c : Cfg) (h : c.WF) (n : Nat), (Block.reset c h n).Inv c

/-- R19: every step keeps the invariants of the block, as long as what is offered stands at its own ports; and under
every `Cfg` with `CFG_WF` (R7, R8) every operation of the block does, at any widths of the ports, the timestamp and the counters. -/
def Obligations.EveryStepKeepsInvariants : Prop :=
  (∀ s t : State, s.Inv → s.offersAtPorts → step s = .next t → t.Inv ∧ t.offersAtPorts) ∧
  (∀ (c : Cfg) (h : c.WF) (n : Nat) (op : Op c) (b b' : Block c) (o : BlockOut c),
    b.Inv c → Block.step c h n op b = .next (b', o) → b'.Inv c)

/-- R16, R19(a), (b), (f), R25: whatever is offered, stages too, every step keeps the encoder's invariants and the
canonical form and the written part of `BUF`. -/
def Obligations.EveryStepKeepsStorage : Prop :=
  ∀ s t : State, s.enc.Inv cfg → s.dec.BufInv → step s = .next t → t.enc.Inv cfg ∧ t.dec.BufInv

/-- R16, R53: in a state that meets the invariants no instruction faults, stages too. -/
def Obligations.NoFaultUnderInvariants : Prop :=
  ∀ (i : Instr) (s : State), s.dec.BufInv → noFault (exec i s)

/-- R32: `BUF` is never accessed out of range, by any instruction in any state. -/
def Obligations.BufIndexStaysInRange : Prop :=
  ∀ (i : Instr) (s : State) (n : Nat), exec i s ≠ .fault (.bufOutOfRange n)

/-- R22: an operation's outputs are remembered by nothing: what the next one does, and gives, does not depend on
them. -/
def Obligations.OutputsAreNotRead : Prop :=
  ∀ (i : Instr) (s : State) (o : Outputs), exec i { s with out := o } = exec i s

/-- R20, R21, R132, R133: the ports: a request is taken exactly when the encoder is idle, the offered TX byte is the
one `ENC.EMIT` transfers and no `FEED` moves it, and the decoder is always ready. -/
def Obligations.PortsShowTheBlock : Prop :=
  (∀ s : State, encReqReady s = !s.enc.encBusy ∧ txValid s = s.enc.encBusy ∧ rxReady s = true) ∧
  (∀ s t : State, exec .encEmit s = .next t → t.out.tx = txPort s) ∧
  (∀ (b : Byte) (now : BitVec 64) (s t : State), exec (.feed b now) s = .next t → txPort t = txPort s)

/-- R14, R49, R50: the numeric codes at the ports. -/
def Obligations.PortCodes : Prop :=
  decStateCode .idle = 0b00#2 ∧ decStateCode .accumulating = 0b01#2 ∧ decStateCode .escaped = 0b10#2 ∧
  encRspCode .ok = 0#1 ∧ encRspCode .outOfRange = 1#1 ∧
  (∀ s : State, (s.out.ev = .none ↔ evKind s = 0#2) ∧ ((∃ f, s.out.ev = .frame f) ↔ evKind s = 1#2) ∧
    (s.out.ev = .framingError ↔ evKind s = 2#2) ∧ (s.out.ev = .checksumError ↔ evKind s = 3#2))

/-! Steps and words. -/

/-- R10 with log entries 1, 9: a step performs the operation of the oldest offer whose port is ready, with that offer
taken. -/
def Obligations.StepRunsTheOffer : Prop :=
  ∀ (s : State) (w : OpWord) (rest : List OpWord) (i : Instr), s.env.rst = false → s.hasReset = true →
    firstReady s.enc.encBusy s.env.pend = some (w, rest) → decode s.dec.decState w = .ok i →
    step s = exec i { s with env := { s.env with pend := rest } }

/-- R130, R37 with log entries 8, 9, 18: while the encoder is busy a request at the head of the offers waits, stays
offered, and what comes after it is served; when nothing offered is enabled the step changes nothing of the block
and of the offers. -/
def Obligations.RequestsWaitWhileBusy : Prop :=
  (∀ (s t : State) (w : OpWord) (rest : List OpWord), s.enc.encBusy = true → s.env.rst = false →
    w.lane = .encReq → s.env.pend = w :: rest → step s = .next t → ∃ rest', t.env.pend = w :: rest') ∧
  (∀ s : State, s.env.rst = false → (∀ w ∈ s.env.pend, laneReady s.enc.encBusy w.lane = false) →
    step s = .next { s with out := Outputs.idle })

/-- U3, R127(b) with log entry 11: before the first `RESET` no other operation has a meaning. -/
def Obligations.NothingRunsBeforeReset : Prop :=
  ∀ (s t : State), s.hasReset = false → step s = .next t →
    (t = { s with out := Outputs.idle }) ∨
    (t.hasReset = true ∧ t.enc.encBusy = false ∧ t.enc.encIdx.val = 0 ∧ t.enc.encEsc = false ∧
      t.dec.decState = .idle ∧ t.dec.decLen.val = 0 ∧
      t.dec.feCnt = 0#32 ∧ t.dec.ceCnt = 0#32 ∧ t.out = Outputs.idle)

/-- R43, R49, R41: decoding the word of an instruction, in a decoder state in which it is the one selected, gives
the instruction back, every operand with it. -/
def Obligations.DecodeOfEncode : Prop :=
  ∀ (i : Instr) (st : DecState), i.wf = true → i.selectedIn st = true → decode st (encode i) = .ok i

/-- R43: whatever word decodes, the instruction is well formed and selected; R53: no byte at the RX port is
refused. -/
def Obligations.DecodeIsSelective : Prop :=
  (∀ (st : DecState) (w : OpWord) (i : Instr), decode st w = .ok i → i.wf = true ∧ i.selectedIn st = true) ∧
  (∀ (st : DecState) (b : Byte) (now : BitVec 64), ∃ i, decode st ⟨.rx, [b], now⟩ = .ok i)

/-- R41, R43, R52 with log entry 12: a few words written out from the formats. That a table word is read in `IDLE`,
and that a packed payload with a pad bit set is rejected, is the model's choice (log entry 12). -/
def Obligations.SampleWordsDecode : Prop :=
  decodeTableWord 8 0x7E = some .feedStart ∧ decodeTableWord 8 0x7F = some .feedEndIdle ∧
  decodeTableWord 8 0x7D = some .feedEscIdle ∧ decodeTableWord 8 0x41 = some (.feedLitIdle 0x41#8) ∧
  decodeTableWord 24 0x548D14 = some (.pack 5#4 0x12345#18) ∧ decodeTableWord 24 0x548D15 = none ∧
  decode .accumulating ⟨.rx, [0x7F#8], 9#64⟩ = .ok (.feedEndAcc 9#64) ∧
  decode .escaped ⟨.rx, [0x5E#8], 0#64⟩ = .ok (.feedLitEscd 0x5E#8)
end

