-- ==== Sys2Proof/Laws/State.lean ====
section
/-! SUPPORT. What each named update does to each field: one lemma a field, true by unfolding once, so that no later
proof unfolds a record update. -/

namespace Sys2Proof.Machine

/-! Updates of the whole state. -/

@[simp] theorem State.quiet_enc (s : State) : s.quiet.enc = s.enc := rfl

@[simp] theorem State.quiet_dec (s : State) : s.quiet.dec = s.dec := rfl

@[simp] theorem State.quiet_out (s : State) : s.quiet.out = Outputs.idle := rfl

@[simp] theorem State.quiet_env (s : State) : s.quiet.env = s.env := rfl

@[simp] theorem State.quiet_draws (s : State) : s.quiet.draws = s.draws := rfl

@[simp] theorem State.quiet_hasReset (s : State) : s.quiet.hasReset = s.hasReset := rfl

@[simp] theorem State.giveStage_enc (r : StageOut) (s : State) : (s.giveStage r).enc = s.enc := rfl

@[simp] theorem State.giveStage_dec (r : StageOut) (s : State) : (s.giveStage r).dec = s.dec := rfl

@[simp] theorem State.giveStage_out (r : StageOut) (s : State) : (s.giveStage r).out = Outputs.ofStage r := rfl

@[simp] theorem State.giveStage_env (r : StageOut) (s : State) : (s.giveStage r).env = s.env := rfl

@[simp] theorem State.giveStage_draws (r : StageOut) (s : State) : (s.giveStage r).draws = s.draws := rfl

@[simp] theorem State.giveStage_hasReset (r : StageOut) (s : State) : (s.giveStage r).hasReset = s.hasReset := rfl

@[simp] theorem State.applyReset_enc (s : State) : s.applyReset.enc = Enc.reset s.draws := rfl

@[simp] theorem State.applyReset_dec (s : State) : s.applyReset.dec = Dec.reset Config.CNT_W := rfl

@[simp] theorem State.applyReset_out (s : State) : s.applyReset.out = Outputs.idle := rfl

@[simp] theorem State.applyReset_env (s : State) : s.applyReset.env = s.env := rfl

@[simp] theorem State.applyReset_draws (s : State) : s.applyReset.draws = s.draws + 4 := rfl

@[simp] theorem State.applyReset_hasReset (s : State) : s.applyReset.hasReset = true := rfl

@[simp] theorem State.block_enc (s : State) : s.block.enc = s.enc := rfl

@[simp] theorem State.block_dec (s : State) : s.block.dec = s.dec := rfl

/-! The block under a configuration. -/

@[simp] theorem Block.reset_enc (c : Cfg) (h : c.WF) (n : Nat) : (Block.reset c h n).enc = Enc.reset n := rfl

@[simp] theorem Block.reset_dec (c : Cfg) (h : c.WF) (n : Nat) : (Block.reset c h n).dec = Dec.reset c.CNT_W := rfl

@[simp] theorem BlockOut.idle_encRsp (c : Cfg) : (BlockOut.idle c).encRsp = none := rfl

@[simp] theorem BlockOut.idle_tx (c : Cfg) : (BlockOut.idle c).tx = none := rfl

@[simp] theorem BlockOut.idle_ev (c : Cfg) : (BlockOut.idle c).ev = .none := rfl

@[simp] theorem Outputs.ofBlock_encRsp (o : BlockOut cfg) : (Outputs.ofBlock o).encRsp = o.encRsp := rfl

@[simp] theorem Outputs.ofBlock_tx (o : BlockOut cfg) : (Outputs.ofBlock o).tx = o.tx := rfl

@[simp] theorem Outputs.ofBlock_ev (o : BlockOut cfg) : (Outputs.ofBlock o).ev = o.ev := rfl

@[simp] theorem Outputs.ofBlock_stage (o : BlockOut cfg) : (Outputs.ofBlock o).stage = none := rfl

/-! Updates of the decoder. -/

@[simp] theorem Dec.start_decState {cw : Nat} (d : Dec cw) : (d.start).decState = .accumulating := rfl

@[simp] theorem Dec.start_decLen {cw : Nat} (d : Dec cw) : (d.start).decLen = 0 := rfl

@[simp] theorem Dec.start_buf {cw : Nat} (d : Dec cw) : (d.start).buf = d.buf := rfl

@[simp] theorem Dec.start_feCnt {cw : Nat} (d : Dec cw) : (d.start).feCnt = d.feCnt := rfl

@[simp] theorem Dec.start_ceCnt {cw : Nat} (d : Dec cw) : (d.start).ceCnt = d.ceCnt := rfl

@[simp] theorem Dec.escape_decState {cw : Nat} (d : Dec cw) : (d.escape).decState = .escaped := rfl

@[simp] theorem Dec.escape_decLen {cw : Nat} (d : Dec cw) : (d.escape).decLen = d.decLen := rfl

@[simp] theorem Dec.escape_buf {cw : Nat} (d : Dec cw) : (d.escape).buf = d.buf := rfl

@[simp] theorem Dec.escape_feCnt {cw : Nat} (d : Dec cw) : (d.escape).feCnt = d.feCnt := rfl

@[simp] theorem Dec.escape_ceCnt {cw : Nat} (d : Dec cw) : (d.escape).ceCnt = d.ceCnt := rfl

@[simp] theorem Dec.toIdle_decState {cw : Nat} (d : Dec cw) : (d.toIdle).decState = .idle := rfl

@[simp] theorem Dec.toIdle_decLen {cw : Nat} (d : Dec cw) : (d.toIdle).decLen = 0 := rfl

@[simp] theorem Dec.toIdle_buf {cw : Nat} (d : Dec cw) : (d.toIdle).buf = d.buf := rfl

@[simp] theorem Dec.toIdle_feCnt {cw : Nat} (d : Dec cw) : (d.toIdle).feCnt = d.feCnt := rfl

@[simp] theorem Dec.toIdle_ceCnt {cw : Nat} (d : Dec cw) : (d.toIdle).ceCnt = d.ceCnt := rfl

@[simp] theorem Dec.countFraming_decState {cw : Nat} (d : Dec cw) : (d.countError .framing).decState = d.decState := rfl

@[simp] theorem Dec.countFraming_decLen {cw : Nat} (d : Dec cw) : (d.countError .framing).decLen = d.decLen := rfl

@[simp] theorem Dec.countFraming_buf {cw : Nat} (d : Dec cw) : (d.countError .framing).buf = d.buf := rfl

@[simp] theorem Dec.countFraming_feCnt {cw : Nat} (d : Dec cw) : (d.countError .framing).feCnt = satInc d.feCnt := rfl

@[simp] theorem Dec.countFraming_ceCnt {cw : Nat} (d : Dec cw) : (d.countError .framing).ceCnt = d.ceCnt := rfl

@[simp] theorem Dec.countChecksum_decState {cw : Nat} (d : Dec cw) : (d.countError .checksum).decState = d.decState := rfl

@[simp] theorem Dec.countChecksum_decLen {cw : Nat} (d : Dec cw) : (d.countError .checksum).decLen = d.decLen := rfl

@[simp] theorem Dec.countChecksum_buf {cw : Nat} (d : Dec cw) : (d.countError .checksum).buf = d.buf := rfl

@[simp] theorem Dec.countChecksum_feCnt {cw : Nat} (d : Dec cw) : (d.countError .checksum).feCnt = d.feCnt := rfl

@[simp] theorem Dec.countChecksum_ceCnt {cw : Nat} (d : Dec cw) : (d.countError .checksum).ceCnt = satInc d.ceCnt := rfl

@[simp] theorem Dec.reset_decState (cw : Nat) : (Dec.reset cw).decState = .idle := rfl

@[simp] theorem Dec.reset_decLen (cw : Nat) : (Dec.reset cw).decLen = 0 := rfl

@[simp] theorem Dec.reset_buf (cw : Nat) : (Dec.reset cw).buf = [] := rfl

@[simp] theorem Dec.reset_feCnt (cw : Nat) : (Dec.reset cw).feCnt = 0 := rfl

@[simp] theorem Dec.reset_ceCnt (cw : Nat) : (Dec.reset cw).ceCnt = 0 := rfl

/-! The encoder after a reset. -/

@[simp] theorem Enc.reset_encBusy (n : Nat) : (Enc.reset n).encBusy = false := rfl

@[simp] theorem Enc.reset_encIdx (n : Nat) : (Enc.reset n).encIdx = 0 := rfl

@[simp] theorem Enc.reset_encEsc (n : Nat) : (Enc.reset n).encEsc = false := rfl

/-! Outputs. -/

@[simp] theorem Outputs.idle_encRsp  : Outputs.idle.encRsp = none := rfl

@[simp] theorem Outputs.idle_tx  : Outputs.idle.tx = none := rfl

@[simp] theorem Outputs.idle_ev  : Outputs.idle.ev = .none := rfl

@[simp] theorem Outputs.idle_stage  : Outputs.idle.stage = none := rfl

@[simp] theorem Outputs.ofRsp_encRsp (r : EncRsp) : (Outputs.ofRsp r).encRsp = some r := rfl

@[simp] theorem Outputs.ofRsp_tx (r : EncRsp) : (Outputs.ofRsp r).tx = none := rfl

@[simp] theorem Outputs.ofRsp_ev (r : EncRsp) : (Outputs.ofRsp r).ev = .none := rfl

@[simp] theorem Outputs.ofRsp_stage (r : EncRsp) : (Outputs.ofRsp r).stage = none := rfl

@[simp] theorem Outputs.ofTx_encRsp (t : TxByte) : (Outputs.ofTx t).encRsp = none := rfl

@[simp] theorem Outputs.ofTx_tx (t : TxByte) : (Outputs.ofTx t).tx = some t := rfl

@[simp] theorem Outputs.ofTx_ev (t : TxByte) : (Outputs.ofTx t).ev = .none := rfl

@[simp] theorem Outputs.ofTx_stage (t : TxByte) : (Outputs.ofTx t).stage = none := rfl

@[simp] theorem Outputs.ofEvent_encRsp (e : Event Config.TS_W) : (Outputs.ofEvent e).encRsp = none := rfl

@[simp] theorem Outputs.ofEvent_tx (e : Event Config.TS_W) : (Outputs.ofEvent e).tx = none := rfl

@[simp] theorem Outputs.ofEvent_ev (e : Event Config.TS_W) : (Outputs.ofEvent e).ev = e := rfl

@[simp] theorem Outputs.ofEvent_stage (e : Event Config.TS_W) : (Outputs.ofEvent e).stage = none := rfl

@[simp] theorem Outputs.ofStage_encRsp (r : StageOut) : (Outputs.ofStage r).encRsp = none := rfl

@[simp] theorem Outputs.ofStage_tx (r : StageOut) : (Outputs.ofStage r).tx = none := rfl

@[simp] theorem Outputs.ofStage_ev (r : StageOut) : (Outputs.ofStage r).ev = .none := rfl

@[simp] theorem Outputs.ofStage_stage (r : StageOut) : (Outputs.ofStage r).stage = some r := rfl

end Sys2Proof.Machine
end

