-- ==== Sys2Proof/Laws/Fetch.lean ====
section
/-! SUPPORT. What a step can be: `RESET` by the pin, nothing enabled, one offered operation, or a refusal; and what
the choice of the offer does to the list. -/

namespace Sys2Proof.Machine

/-- The offer taken was in the list, its port was ready, and the rest lost nothing else. -/
theorem firstReady_some {busy : Bool} {pend rest : List OpWord} {w : OpWord}
    (h : firstReady busy pend = some (w, rest)) :
    laneReady busy w.lane = true ∧ ∃ waiting later, pend = waiting ++ w :: later ∧ rest = waiting ++ later ∧
      ∀ v ∈ waiting, laneReady busy v.lane = false := by
  induction pend generalizing rest with
  | nil => simp [firstReady] at h
  | cons v pend ih =>
    simp only [firstReady] at h
    by_cases hv : laneReady busy v.lane = true
    · rw [if_pos hv] at h
      simp only [Option.some.injEq, Prod.mk.injEq] at h
      obtain ⟨rfl, rfl⟩ := h
      exact ⟨hv, [], pend, rfl, rfl, by simp⟩
    · rw [if_neg hv] at h
      rcases hr : firstReady busy pend with _ | ⟨w', rest'⟩
      · simp [hr] at h
      · simp only [hr, Option.some.injEq, Prod.mk.injEq] at h
        obtain ⟨rfl, rfl⟩ := h
        obtain ⟨h1, ws, later, h2, h3, h4⟩ := ih hr
        refine ⟨h1, v :: ws, later, by simp [h2], by simp [h3], ?_⟩
        intro x hx
        rcases List.mem_cons.mp hx with rfl | hx
        · simpa using hv
        · exact h4 x hx

theorem firstReady_none {busy : Bool} {pend : List OpWord} :
    firstReady busy pend = none ↔ ∀ w ∈ pend, laneReady busy w.lane = false := by
  induction pend with
  | nil => simp [firstReady]
  | cons v pend ih =>
    simp only [firstReady]
    split
    · simp_all
    · split <;> simp_all

/-- Everything a step that answers a next state can be. -/
theorem step_cases {s t : State} (h : step s = .next t) :
    (s.env.rst = true ∧ exec .reset { s with env := { s.env with rst := false } } = .next t) ∨
    (s.env.rst = false ∧ firstReady s.enc.encBusy s.env.pend = none ∧ t = s.quiet) ∨
    (s.env.rst = false ∧ ∃ w rest i, firstReady s.enc.encBusy s.env.pend = some (w, rest) ∧
      decode s.dec.decState w = .ok i ∧ (s.hasReset = true ∨ i = .reset) ∧
      exec i { s with env := { s.env with pend := rest } } = .next t) := by
  unfold step fetch at h
  by_cases hr : s.env.rst = true
  · simp only [hr, if_true] at h
    exact .inl ⟨hr, h⟩
  · simp only [hr, Bool.false_eq_true, if_false] at h
    have hr' : s.env.rst = false := by simpa using hr
    rcases hf : firstReady s.enc.encBusy s.env.pend with _ | ⟨w, rest⟩
    · simp only [hf] at h
      exact .inr (.inl ⟨hr', rfl, by simpa [eq_comm] using h⟩)
    · simp only [hf] at h
      rcases hd : decode s.dec.decState w with e | i
      · simp [hd] at h
      · simp only [hd] at h
        by_cases hg : (s.hasReset || i == .reset) = true
        · rw [if_pos hg] at h
          exact .inr (.inr ⟨hr', w, rest, i, rfl, hd, by simpa using hg, by simpa [hr'] using h⟩)
        · rw [if_neg hg] at h
          simp at h

end Sys2Proof.Machine
end

