-- ==== Sys2Proof/Laws/Memory.lean ====
section
/-! SUPPORT. The storage `BUF`: read after write, that every write keeps the canonical form, and what the loads and
the store can answer (rules R25, R31, R32). -/

namespace Sys2Proof.Machine

theorem Memory.lookup_insert (m : Memory) (i j : Nat) (v : Byte) :
    Memory.lookup (Memory.insert m i v) j = if j = i then some v else Memory.lookup m j := by
  induction m with
  | nil => simp [Memory.insert, Memory.lookup, eq_comm]
  | cons x rest ih =>
    obtain ⟨a, x⟩ := x
    simp only [Memory.insert]
    split_ifs with h1 h2 h3 h4
    all_goals simp only [Memory.lookup, ih]
    all_goals split_ifs <;> first | rfl | omega

@[simp] theorem Memory.lookup_insert_self (m : Memory) (i : Nat) (v : Byte) :
    Memory.lookup (Memory.insert m i v) i = some v := by simp [Memory.lookup_insert]

theorem Memory.wfFrom_insert (m : Memory) (lo i : Nat) (v : Byte) (hi : lo ≤ i) (h4 : i < 4)
    (h : Memory.wfFrom lo m = true) : Memory.wfFrom lo (Memory.insert m i v) = true := by
  induction m generalizing lo with
  | nil => simp [Memory.insert, Memory.wfFrom, hi, h4]
  | cons x rest ih =>
    obtain ⟨a, x⟩ := x
    simp only [Memory.wfFrom, Bool.and_eq_true, decide_eq_true_eq] at h
    simp only [Memory.insert]
    split_ifs with h1 h2
    · simp only [Memory.wfFrom, Bool.and_eq_true, decide_eq_true_eq]; exact ⟨⟨hi, h4⟩, ⟨h1, h.1.2⟩, h.2⟩
    · subst h2; simp only [Memory.wfFrom, Bool.and_eq_true, decide_eq_true_eq]; exact h
    · simp only [Memory.wfFrom, Bool.and_eq_true, decide_eq_true_eq]
      exact ⟨h.1, ih (a + 1) (by omega) h.2⟩

/-- A store keeps the canonical form. -/
theorem Memory.wf_insert (m : Memory) (i : Nat) (v : Byte) (h4 : i < 4) (h : Memory.wf m = true) :
    Memory.wf (Memory.insert m i v) = true :=
  Memory.wfFrom_insert m 0 i v (Nat.zero_le i) h4 h

theorem Memory.wf_reset : Memory.wf State.reset.dec.buf = true := rfl

theorem Memory.lookup_none_of_wfFrom (m : Memory) (lo i : Nat) (hi : i < lo) (h : Memory.wfFrom lo m = true) :
    Memory.lookup m i = none := by
  induction m generalizing lo with
  | nil => rfl
  | cons x rest ih =>
    obtain ⟨a, x⟩ := x
    simp only [Memory.wfFrom, Bool.and_eq_true, decide_eq_true_eq] at h
    simp only [Memory.lookup]
    rw [if_neg (by omega)]
    exact ih (a + 1) (by omega) h.2

/-- Equal memories are equal data: two canonical memories that read the same at every index are the same list. -/
theorem Memory.eq_of_lookup (m₁ m₂ : Memory) (lo : Nat) (h₁ : Memory.wfFrom lo m₁ = true)
    (h₂ : Memory.wfFrom lo m₂ = true) (h : ∀ i, Memory.lookup m₁ i = Memory.lookup m₂ i) : m₁ = m₂ := by
  induction m₁ generalizing m₂ lo with
  | nil =>
    cases m₂ with
    | nil => rfl
    | cons y r => have := h y.1; simp [Memory.lookup] at this
  | cons x r₁ ih =>
    cases m₂ with
    | nil => have := h x.1; simp [Memory.lookup] at this
    | cons y r₂ =>
      obtain ⟨a, x⟩ := x
      obtain ⟨b, y⟩ := y
      simp only [Memory.wfFrom, Bool.and_eq_true, decide_eq_true_eq] at h₁ h₂
      have tail₁ : ∀ i, i ≤ a → Memory.lookup r₁ i = none := fun i hi =>
        Memory.lookup_none_of_wfFrom r₁ (a + 1) i (by omega) h₁.2
      have tail₂ : ∀ i, i ≤ b → Memory.lookup r₂ i = none := fun i hi =>
        Memory.lookup_none_of_wfFrom r₂ (b + 1) i (by omega) h₂.2
      have hab : a = b := by
        rcases lt_trichotomy a b with hlt | heq | hgt
        · have := h a
          simp [Memory.lookup, Nat.ne_of_gt hlt, tail₂ a (by omega)] at this
        · exact heq
        · have := h b
          simp [Memory.lookup, Nat.ne_of_gt hgt, tail₁ b (by omega)] at this
      subst hab
      have hxy : x = y := by simpa [Memory.lookup] using h a
      subst hxy
      refine congrArg _ (ih r₂ (a + 1) h₁.2 h₂.2 fun i => ?_)
      by_cases hi : a = i
      · rw [← hi, tail₁ a (by omega), tail₂ a (by omega)]
      · simpa [Memory.lookup, hi] using h i

/-- What the store can answer: in range it writes, out of range it faults. -/
theorem Memory.store_eq (m : Memory) (i : Nat) (v : Byte) :
    Memory.store m i v = if i < 4 then .ok (Memory.insert m i v) else .error (.bufOutOfRange i) := rfl

theorem Memory.load_of_lookup (m : Memory) (i : Nat) (v : Byte) (h4 : i < 4) (h : Memory.lookup m i = some v) :
    Memory.load m i = .ok v := by
  simp [Memory.load, h4, h]

/-- The four reads of the close where all four entries hold a value. -/
theorem Memory.loadBody_of_lookup (m : Memory) (b0 b1 b2 ck : Byte) (h0 : Memory.lookup m 0 = some b0)
    (h1 : Memory.lookup m 1 = some b1) (h2 : Memory.lookup m 2 = some b2) (h3 : Memory.lookup m 3 = some ck) :
    Memory.loadBody m = .ok ⟨b0, b1, b2, ck⟩ := by
  simp [Memory.loadBody, Memory.load_of_lookup, h0, h1, h2, h3, bind, Except.bind, pure, Except.pure]

theorem Memory.load_of_none (m : Memory) (i : Nat) (h4 : i < 4) (h : Memory.lookup m i = none) :
    Memory.load m i = .error (.bufNoValue i) := by
  simp [Memory.load, h4, h]

/-- Everything the four reads can answer: a body that `BUF` holds, or a fault of an entry without a value. -/
theorem Memory.loadBody_cases (m : Memory) :
    (∃ w, Memory.loadBody m = .ok w ∧ Memory.lookup m 0 = some w.b0 ∧ Memory.lookup m 1 = some w.b1 ∧
      Memory.lookup m 2 = some w.b2 ∧ Memory.lookup m 3 = some w.ck) ∨
    (∃ i, i < 4 ∧ Memory.lookup m i = none ∧ Memory.loadBody m = .error (.bufNoValue i)) := by
  rcases h0 : Memory.lookup m 0 with _ | b0
  · exact .inr ⟨0, by decide, h0, by
      simp only [Memory.loadBody, Memory.load_of_none m 0 (by decide) h0, bind, Except.bind]⟩
  rcases h1 : Memory.lookup m 1 with _ | b1
  · exact .inr ⟨1, by decide, h1, by
      simp only [Memory.loadBody, Memory.load_of_lookup m 0 b0 (by decide) h0,
        Memory.load_of_none m 1 (by decide) h1, bind, Except.bind]⟩
  rcases h2 : Memory.lookup m 2 with _ | b2
  · exact .inr ⟨2, by decide, h2, by
      simp only [Memory.loadBody, Memory.load_of_lookup m 0 b0 (by decide) h0,
        Memory.load_of_lookup m 1 b1 (by decide) h1, Memory.load_of_none m 2 (by decide) h2, bind, Except.bind]⟩
  rcases h3 : Memory.lookup m 3 with _ | ck
  · exact .inr ⟨3, by decide, h3, by
      simp only [Memory.loadBody, Memory.load_of_lookup m 0 b0 (by decide) h0,
        Memory.load_of_lookup m 1 b1 (by decide) h1, Memory.load_of_lookup m 2 b2 (by decide) h2,
        Memory.load_of_none m 3 (by decide) h3, bind, Except.bind]⟩
  exact .inl ⟨⟨b0, b1, b2, ck⟩, Memory.loadBody_of_lookup m b0 b1 b2 ck h0 h1 h2 h3, rfl, rfl, rfl, rfl⟩

end Sys2Proof.Machine
end

