-- ==== Sys2Proof/Laws/Ops.lean ====
section
/-! SUPPORT. What each shared operation can do, said once: `APPEND`, the destuffer, the close, one `FEED`, the
wrappers around a block's step. -/

namespace Sys2Proof.Machine

/-! Flags. -/

theorem isMarker_iff (c : Cfg) (v : Byte) : isMarker c v = true ↔ v ∈ c.markers := by
  simp [isMarker, Cfg.markers, or_assoc]

theorem classify_literal_iff (c : Cfg) (b : Byte) : classify c b = .literal ↔ b ∉ c.markers := by
  unfold classify Cfg.markers
  split_ifs <;> simp_all

theorem isLiteral_iff (b : Byte) : isLiteral b = true ↔ b ∉ [0x7E#8, 0x7F#8, 0x7D#8] := by
  rw [isLiteral, beq_iff_eq, classify_literal_iff]; rfl

theorem xform_xform (c : Cfg) (v : Byte) : xform c (xform c v) = v := by
  simp [xform]

theorem idxSucc_val (i : Fin 6) : (idxSucc i).val = min (i.val + 1) 5 := by
  revert i; decide

theorem satInc_toNat {w : Nat} (x : BitVec w) : (satInc x).toNat = min (x.toNat + 1) (2 ^ w - 1) := by
  unfold satInc
  have hx := x.isLt
  split_ifs with h
  · subst h; simp
  · have hne : x.toNat ≠ 2 ^ w - 1 := fun he => h (BitVec.eq_of_toNat_eq (by simpa using he))
    rcases Nat.eq_zero_or_pos w with rfl | hw
    · simp at hx hne; omega
    · have h2 : 1 < 2 ^ w := Nat.one_lt_two_pow (by omega)
      have h1 : (1 : BitVec w).toNat = 1 := by simp; omega
      have : (x + 1#w).toNat = x.toNat + 1 := by
        rw [BitVec.toNat_add]
        simp only [BitVec.toNat_ofNat, Nat.mod_eq_of_lt h2]
        exact Nat.mod_eq_of_lt (by omega)
      rw [this]; omega

theorem lenFails_iff (n : Fin 6) : lenFails n = true ↔ n.val ≠ 4 := by
  simp [lenFails, Config.BODY_BYTES]

/-! The decoder. -/

/-- Everything `APPEND` does (rule R81): it never faults. -/
theorem Dec.append_spec {cw : Nat} (v : Byte) (d : Dec cw) :
    ∃ d', d.append v = .ok d' ∧ d'.decState = d.decState ∧ d.appended v d' ∧
      (Memory.wf d.buf = true → Memory.wf d'.buf = true) := by
  unfold Dec.append
  by_cases h : d.decLen.val < 4
  · rw [if_pos h, Memory.store_eq, if_pos h]
    refine ⟨{ d with buf := Memory.insert d.buf d.decLen.val v, decLen := idxSucc d.decLen }, rfl, rfl, ?_,
      fun hwf => Memory.wf_insert _ _ _ h hwf⟩
    refine ⟨fun _ => ⟨?_, fun i => Memory.lookup_insert _ _ _ _⟩, fun h' => absurd h' (by omega), rfl, rfl⟩
    simp only [idxSucc_val]; omega
  · rw [if_neg h]
    exact ⟨{ d with decLen := 5 }, rfl, rfl, ⟨fun h' => absurd h' h, fun _ => ⟨rfl, rfl⟩, rfl, rfl⟩, id⟩

/-- Everything the destuffer does (rules R78 to R80). -/
theorem Dec.destuff_spec {cw : Nat} (c : Cfg) (b : Byte) (d : Dec cw) :
    ∃ d', d.destuff c b = .ok d' ∧ d'.decState = .accumulating ∧ d.appended (b ^^^ c.MASK) d' ∧
      (Memory.wf d.buf = true → Memory.wf d'.buf = true) := by
  obtain ⟨d', h1, -, h3, h4⟩ := Dec.append_spec (xform c b) d
  exact ⟨{ d' with decState := .accumulating }, by simp [Dec.destuff, h1], rfl, h3, h4⟩

/-- Everything a close can answer (rules R75, R82 to R84): a framing error, a checksum error, a Frame, or, where
`BUF` lacks one of the four values, a fault. -/
theorem Dec.close_cases {cw tw : Nat} (c : Cfg) (now : BitVec tw) (d : Dec cw) :
    (d.decLen.val ≠ 4 ∧ d.close c now = .ok (d.takeError .framing)) ∨
    (d.decLen.val = 4 ∧ ∃ w : Body, d.holds w.b0 w.b1 w.b2 w.ck ∧ c.CK w.b0 w.b1 w.b2 ≠ w.ck ∧
      d.close c now = .ok (d.takeError .checksum)) ∨
    (d.decLen.val = 4 ∧ ∃ w : Body, d.holds w.b0 w.b1 w.b2 w.ck ∧ c.CK w.b0 w.b1 w.b2 = w.ck ∧
      d.close c now = .ok (d.toIdle, .frame (unpackFrame w now))) ∨
    (d.decLen.val = 4 ∧ ∃ i, i < 4 ∧ Memory.lookup d.buf i = none ∧
      d.close c now = .error (.bufNoValue i)) := by
  unfold Dec.close
  by_cases hl : d.decLen.val = 4
  · have hf : lenFails d.decLen = false := by simp [lenFails, hl, Config.BODY_BYTES]
    simp only [hf, Bool.false_eq_true, if_false]
    rcases Memory.loadBody_cases d.buf with ⟨w, hw, h0, h1, h2, h3⟩ | ⟨i, hi, hn, he⟩
    · by_cases hc : c.CK w.b0 w.b1 w.b2 = w.ck
      · refine .inr (.inr (.inl ⟨hl, w, ⟨h0, h1, h2, h3⟩, hc, ?_⟩))
        simp [hw, ckFails, cksum, hc]
      · refine .inr (.inl ⟨hl, w, ⟨h0, h1, h2, h3⟩, hc, ?_⟩)
        simp [hw, ckFails, cksum, hc]
    · exact .inr (.inr (.inr ⟨hl, i, hi, hn, by simp [he]⟩))
  · have hf : lenFails d.decLen = true := (lenFails_iff _).mpr hl
    exact .inl ⟨hl, by simp [hf]⟩

/-- A close where `BUF` holds its four values, at length 4. -/
theorem Dec.close_of_holds {cw tw : Nat} (c : Cfg) (now : BitVec tw) (d : Dec cw) (b0 b1 b2 ck : Byte)
    (hl : d.decLen.val = 4) (hb : d.holds b0 b1 b2 ck) :
    d.close c now = if c.CK b0 b1 b2 = ck then .ok (d.toIdle, .frame (unpackFrame ⟨b0, b1, b2, ck⟩ now))
      else .ok (d.takeError .checksum) := by
  obtain ⟨h0, h1, h2, h3⟩ := hb
  unfold Dec.close
  rw [Memory.loadBody_of_lookup _ _ _ _ _ h0 h1 h2 h3]
  by_cases hc : c.CK b0 b1 b2 = ck <;> simp [lenFails, hl, ckFails, cksum, hc, Config.BODY_BYTES]

/-- Everything one `FEED` can do (rule R90). -/
theorem Dec.feed_cases {cw tw : Nat} (c : Cfg) (b : Byte) (now : BitVec tw) (d : Dec cw) :
    (classify c b = .startMarker ∧ d.feed c b now = .ok (d.start, .none)) ∨
    (classify c b ≠ .startMarker ∧ d.decState = .idle ∧ d.feed c b now = .ok (d, .none)) ∨
    (classify c b = .endMarker ∧ d.decState = .accumulating ∧ d.feed c b now = d.close c now) ∨
    (classify c b = .escMarker ∧ d.decState = .accumulating ∧ d.feed c b now = .ok (d.escape, .none)) ∨
    (classify c b = .literal ∧ d.decState = .accumulating ∧ d.feed c b now = noEvent (d.append b)) ∨
    (classify c b ≠ .startMarker ∧ d.decState = .escaped ∧ d.feed c b now = noEvent (d.destuff c b)) := by
  unfold Dec.feed
  cases hc : classify c b <;> cases hs : d.decState <;> simp

/-! Around a block's step. -/

/-- Everything `runDec` can answer. -/
theorem State.runDec_next {r : Except Fault (Dec Config.CNT_W × Event Config.TS_W)} {s t : State} :
    s.runDec r = .next t ↔ ∃ d e, r = .ok (d, e) ∧ t = { s with dec := d, out := Outputs.ofEvent e } := by
  cases r with
  | ok p => obtain ⟨d, e⟩ := p; simp [State.runDec, eq_comm]
  | error f => simp [State.runDec]

theorem State.runDec_fault {r : Except Fault (Dec Config.CNT_W × Event Config.TS_W)} {s : State} {f : Fault} :
    s.runDec r = .fault f ↔ r = .error f := by
  cases r <;> simp [State.runDec]

theorem State.runDec_refused {r : Except Fault (Dec Config.CNT_W × Event Config.TS_W)} {s : State} {q : Refusal} :
    s.runDec r ≠ .refused q := by
  cases r <;> simp [State.runDec]

/-- Everything `runBlock` can answer. -/
theorem State.runBlock_next {r : BlockResult cfg} {s t : State} :
    s.runBlock r = .next t ↔
      ∃ b o, r = .next (b, o) ∧ t = { s with enc := b.enc, dec := b.dec, out := Outputs.ofBlock o } := by
  cases r with
  | next p => obtain ⟨b, o⟩ := p; simp [State.runBlock, eq_comm]
  | fault f => simp [State.runBlock]
  | refused q => simp [State.runBlock]

theorem State.runBlock_fault {r : BlockResult cfg} {s : State} {f : Fault} :
    s.runBlock r = .fault f ↔ r = .fault f := by
  cases r <;> simp [State.runBlock]

theorem State.runBlock_refused {r : BlockResult cfg} {s : State} {q : Refusal} :
    s.runBlock r = .refused q ↔ r = .refused q := by
  cases r <;> simp [State.runBlock]

/-- `ENC.ACCEPT` said on the machine's state. -/
theorem execEncAccept_eq (cmd : BitVec Config.W_CMD_IN) (data : BitVec Config.W_DATA_IN) (s : State) :
    execEncAccept cmd data s = if s.enc.encBusy then .next s.quiet
      else if s.enc.encEsc then .refused .unreachable
      else .next { s with enc := (s.enc.accept cfg cmd data).1, out := Outputs.ofRsp (s.enc.accept cfg cmd data).2 } := by
  unfold execEncAccept Block.accept
  split_ifs <;> simp_all <;> rfl

/-- `ENC.EMIT` said on the machine's state. -/
theorem execEncEmit_eq (s : State) :
    execEncEmit s = if s.enc.encBusy then .next { s with enc := (s.enc.emit cfg).1, out := Outputs.ofTx (s.enc.emit cfg).2 }
      else .next s.quiet := by
  unfold execEncEmit Block.emit
  split_ifs <;> simp_all <;> rfl

/-- `FEED` said on the machine's state: the decoder's step alone. -/
theorem execFeed_eq (b : Byte) (now : BitVec Config.TS_W) (s : State) :
    execFeed b now s = s.runDec (s.dec.feed cfg b now) := by
  unfold execFeed Block.feed
  rw [State.block_dec]
  cases s.dec.feed cfg b now <;> rfl

/-- Every operation but `RESET` is the block's step under `cfg`. -/
theorem exec_instr (op : Op cfg) (s : State) (h : op ≠ .reset) :
    exec op.instr s = s.runBlock (Block.step cfg cfg_wf s.draws op s.block) := by
  cases op with
  | accept cmd data => rfl
  | emit => rfl
  | feed b now => rfl
  | reset => exact absurd rfl h

/-- `RESET` is the block's step under `cfg`, with the model's own fields moved on. -/
theorem exec_instr_reset (s : State) :
    exec (Op.reset (c := cfg)).instr s = { s with draws := s.draws + 4, hasReset := true }.runBlock
      (Block.step cfg cfg_wf s.draws .reset s.block) := rfl

/-- Everything one operation of the block can do, under any configuration. -/
theorem Block.step_next {c : Cfg} {hc : c.WF} {n : Nat} {op : Op c} {b b' : Block c} {o : BlockOut c}
    (h : Block.step c hc n op b = .next (b', o)) :
    (op = .reset ∧ b' = Block.reset c hc n ∧ o = BlockOut.idle c) ∨
    (op ≠ .reset ∧ b' = b ∧ o = BlockOut.idle c) ∨
    (∃ cmd data, op = .accept cmd data ∧ b.enc.encBusy = false ∧ b.enc.encEsc = false ∧
      b' = ⟨(b.enc.accept c cmd data).1, b.dec⟩ ∧
      o = { BlockOut.idle c with encRsp := some (b.enc.accept c cmd data).2 }) ∨
    (op = .emit ∧ b.enc.encBusy = true ∧ b' = ⟨(b.enc.emit c).1, b.dec⟩ ∧
      o = { BlockOut.idle c with tx := some (b.enc.emit c).2 }) ∨
    (∃ v now d e, op = .feed v now ∧ b.dec.feed c v now = .ok (d, e) ∧ b' = ⟨b.enc, d⟩ ∧
      o = { BlockOut.idle c with ev := e }) := by
  cases op with
  | accept cmd data =>
    simp only [Block.step, Block.accept] at h
    split_ifs at h with h1 h2
    · cases h; exact .inr (.inl ⟨by simp, rfl, rfl⟩)
    · cases h; exact .inr (.inr (.inl ⟨cmd, data, rfl, by simpa using h1, by simpa using h2, rfl, rfl⟩))
  | emit =>
    simp only [Block.step, Block.emit] at h
    split_ifs at h with h1
    · cases h; exact .inr (.inr (.inr (.inl ⟨rfl, h1, rfl, rfl⟩)))
    · cases h; exact .inr (.inl ⟨by simp, rfl, rfl⟩)
  | feed v now =>
    simp only [Block.step, Block.feed] at h
    rcases hf : b.dec.feed c v now with f | ⟨d, e⟩
    · rw [hf] at h; cases h
    · rw [hf] at h; cases h; exact .inr (.inr (.inr (.inr ⟨v, now, d, e, rfl, hf, rfl, rfl⟩)))
  | reset => cases h; exact .inl ⟨rfl, rfl, rfl⟩

/-- Everything a `FEED` case can answer. -/
theorem State.runCase_next {b : Bool} {r : Except Fault (Dec Config.CNT_W × Event Config.TS_W)} {s t : State} :
    s.runCase b r = .next t ↔ b = true ∧ s.runDec r = .next t := by
  cases b <;> simp [State.runCase]

theorem State.runCase_fault {b : Bool} {r : Except Fault (Dec Config.CNT_W × Event Config.TS_W)} {s : State}
    {f : Fault} : s.runCase b r = .fault f ↔ b = true ∧ s.runDec r = .fault f := by
  cases b <;> simp [State.runCase]

theorem noEvent_ok {cw tw : Nat} {r : Except Fault (Dec cw)} {d : Dec cw} {e : Event tw} :
    noEvent r = .ok (d, e) ↔ r = .ok d ∧ e = .none := by
  cases r <;> simp [noEvent, eq_comm]

theorem noEvent_error {cw tw : Nat} {r : Except Fault (Dec cw)} {f : Fault} :
    (noEvent r : Except Fault (Dec cw × Event tw)) = .error f ↔ r = .error f := by
  cases r <;> simp [noEvent]

/-! The encoder. -/

/-- `FRAME.NEW` on natural numbers, as the ports give them. -/
theorem frameNew_nat (command data : Nat) :
    frameNew command data = if command ≤ 15 ∧ data ≤ 262143
      then some ⟨BitVec.ofNat 4 command, BitVec.ofNat 18 data, none⟩ else none := by
  unfold frameNew inRange
  by_cases h : command ≤ 15 ∧ data ≤ 262143
  · rw [if_pos (by simp; omega), if_pos h]; simp [BitVec.ofInt_natCast]
  · rw [if_neg (by simp; omega), if_neg h]

/-- Everything `ENC.ACCEPT` does to an idle encoder. -/
theorem Enc.accept_eq {wc wd : Nat} (c : Cfg) (cmd : BitVec wc) (data : BitVec wd) (e : Enc) :
    e.accept c cmd data = if cmd.toNat ≤ 15 ∧ data.toNat ≤ 262143 then
      ({ encWord := bodyOf c (BitVec.ofNat 4 cmd.toNat) (BitVec.ofNat 18 data.toNat), encIdx := 0,
         encEsc := false, encBusy := true }, .ok) else (e, .outOfRange) := by
  simp only [Enc.accept, frameNew_nat]
  by_cases h : cmd.toNat ≤ 15 ∧ data.toNat ≤ 262143
  · simp only [if_pos h]
  · simp only [if_neg h]

/-- `ENC.EMIT` never changes the word (rule R62). -/
theorem Enc.emit_encWord (c : Cfg) (e : Enc) : (e.emit c).1.encWord = e.encWord := by
  unfold Enc.emit; dsimp only; split_ifs <;> rfl

end Sys2Proof.Machine
end

