-- ==== Sys2Proof/Laws/PerInstr.lean ====
section
/-! SUPPORT. Statements for all instructions, one lemma per constructor. `Shape`: how many bytes an instruction's
word has: the format's bytes (rules R41, R42, R43, R49), or as many as the operand sequence. -/

namespace Sys2Proof.Laws.Shape

/-- The bytes of an instruction's word. -/
def wordBytes : Instr → Nat
  | .frameNew _ _ => 5
  | .pack _ _ => 3
  | .cksum _ _ _ => 3
  | .stuff body => body.length
  | .delimit sbody => sbody.length
  | .enc _ _ => 5
  | .encAccept _ _ => 5
  | .encEmit => 0
  | .feed _ _ => 1
  | .feedStart => 1
  | .feedEndIdle => 1
  | .feedEscIdle => 1
  | .feedLitIdle _ => 1
  | .feedEndAcc _ => 1
  | .feedEscAcc => 1
  | .feedLitAcc _ => 1
  | .feedEndEscd => 1
  | .feedEscEscd => 1
  | .feedLitEscd _ => 1
  | .append _ => 1
  | .closeLen => 0
  | .closeCk => 0
  | .unpack _ => 0
  | .reset => 0

/-- The encoded word has the format's length. -/
def Statement (i : Instr) : Prop := (encode i).bytes.length = wordBytes i

theorem frameNew (cmd : BitVec Config.W_CMD_IN) (data : BitVec Config.W_DATA_IN) : Statement (.frameNew cmd data) := rfl
theorem pack (command : BitVec 4) (data : BitVec 18) : Statement (.pack command data) := rfl
theorem cksum (b0 b1 b2 : Byte) : Statement (.cksum b0 b1 b2) := rfl
theorem stuff (body : List Byte) : Statement (.stuff body) := rfl
theorem delimit (sbody : List Byte) : Statement (.delimit sbody) := rfl
theorem enc (cmd : BitVec Config.W_CMD_IN) (data : BitVec Config.W_DATA_IN) : Statement (.enc cmd data) := rfl
theorem encAccept (cmd : BitVec Config.W_CMD_IN) (data : BitVec Config.W_DATA_IN) : Statement (.encAccept cmd data) := rfl
theorem encEmit : Statement .encEmit := rfl
theorem feed (b : Byte) (now : BitVec Config.TS_W) : Statement (.feed b now) := rfl
theorem feedStart : Statement .feedStart := rfl
theorem feedEndIdle : Statement .feedEndIdle := rfl
theorem feedEscIdle : Statement .feedEscIdle := rfl
theorem feedLitIdle (b : Byte) : Statement (.feedLitIdle b) := rfl
theorem feedEndAcc (now : BitVec Config.TS_W) : Statement (.feedEndAcc now) := rfl
theorem feedEscAcc : Statement .feedEscAcc := rfl
theorem feedLitAcc (b : Byte) : Statement (.feedLitAcc b) := rfl
theorem feedEndEscd : Statement .feedEndEscd := rfl
theorem feedEscEscd : Statement .feedEscEscd := rfl
theorem feedLitEscd (b : Byte) : Statement (.feedLitEscd b) := rfl
theorem append (v : Byte) : Statement (.append v) := rfl
theorem closeLen : Statement .closeLen := rfl
theorem closeCk : Statement .closeCk := rfl
theorem unpack (now : BitVec Config.TS_W) : Statement (.unpack now) := rfl
theorem reset : Statement .reset := rfl

end Sys2Proof.Laws.Shape
end

