-- ==== Sys2Proof/Tests/Slice0.lean ====
section
/-! SUPPORT. Tests. Expected values are from spec/95_test_vectors.md (the section stands at each group) or worked by
hand from the rule named. Then the witnesses: for every statement with hypotheses, a state and operands that meet them. -/

namespace Sys2Proof.Machine.Tests

-- One evaluation at a time, so that the memory limit holds.
set_option Elab.async false

/-- An idle encoder with a known word. -/
def idleEnc : Enc := ⟨⟨0x7F#8, 0x7D#8, 0xF0#8, 0xB5#8⟩, false, 0, false⟩

/-- A busy encoder in the frame of section 2.6, at a position. -/
def busyEnc (i : Fin 6) (esc : Bool) : Enc := { idleEnc with encBusy := true, encIdx := i, encEsc := esc }

/-- A decoder with its buffer. -/
def decAt (st : DecState) (n : Fin 6) (buf : List Byte) : Dec 32 :=
  ⟨st, n, buf.zipIdx.map fun (v, i) => (i, v), 0#32, 0#32⟩

/-- A small state. -/
def mk (e : Enc) (d : Dec 32) : State := ⟨e, d, Outputs.idle, ⟨false, []⟩, 0, true⟩

/-- The next state, if there is one. -/
def nextOf (r : Result) : Option State :=
  match r with
  | .next t => some t
  | .fault _ => none
  | .refused _ => none

/-- What is looked at after a `FEED`: state, length, buffer, event. -/
def decView (r : Result) : Option (DecState × Nat × List Byte × Event 64) :=
  (nextOf r).map fun t => (t.dec.decState, t.dec.decLen.val, t.dec.buf.map (·.2), t.out.ev)

/-- What is looked at after an encoder operation: the sequencer and the outputs. -/
def encView (r : Result) : Option (Bool × Nat × Bool × Option TxByte) :=
  (nextOf r).map fun t => (t.enc.encBusy, t.enc.encIdx.val, t.enc.encEsc, t.out.tx)

/-- A stage's result. -/
def stageView (r : Result) : Option StageOut := (nextOf r).bind (·.out.stage)

/-! Ill-formed terms are refused by WellFormed, one for each check. -/

theorem test_wf_litIdle_marker : (Instr.feedLitIdle 0x7E#8).wf = false := by decide
theorem test_wf_litAcc_marker : (Instr.feedLitAcc 0x7F#8).wf = false := by decide
theorem test_wf_litEscd_marker : (Instr.feedLitEscd 0x7D#8).wf = false := by decide
theorem test_wf_literal : (Instr.feedLitAcc 0x5E#8).wf = true := by decide

/-! Words written out from the formats of 30_encoding.md, one for each constructor. -/

theorem test_decode_frameNew :
    decode .idle ⟨.stage .frameNew, [0x05#8, 0x00#8, 0x01#8, 0x23#8, 0x45#8], 0⟩ = .ok (.frameNew 5#8 0x12345#32) := by
  decide
theorem test_decode_pack : decode .idle ⟨.stage .pack, [0x54#8, 0x8D#8, 0x14#8], 0⟩ = .ok (.pack 5#4 0x12345#18) := by
  decide
theorem test_decode_pack_pad : decode .idle ⟨.stage .pack, [0x54#8, 0x8D#8, 0x16#8], 0⟩ = .error .padNotZero := by
  decide
theorem test_decode_cksum : decode .idle ⟨.stage .cksum, [0x54#8, 0x8D#8, 0x14#8], 0⟩
    = .ok (.cksum 0x54#8 0x8D#8 0x14#8) := by decide
theorem test_decode_stuff : decode .idle ⟨.stage .stuff, [0x7E#8, 0x00#8], 0⟩ = .ok (.stuff [0x7E#8, 0x00#8]) := by
  decide
theorem test_decode_delimit : decode .idle ⟨.stage .delimit, [0x01#8], 0⟩ = .ok (.delimit [0x01#8]) := by decide
theorem test_decode_enc : decode .idle ⟨.stage .enc, [0x0F#8, 0x00#8, 0x03#8, 0xFF#8, 0xFF#8], 0⟩
    = .ok (.enc 15#8 262143#32) := by decide
theorem test_decode_encAccept : decode .idle ⟨.encReq, [0x10#8, 0x00#8, 0x04#8, 0x00#8, 0x00#8], 0⟩
    = .ok (.encAccept 16#8 262144#32) := by decide
theorem test_decode_encEmit : decode .idle ⟨.txReady, [], 0⟩ = .ok .encEmit := by decide
theorem test_decode_feed : decode .idle ⟨.feed, [0x41#8], 7#64⟩ = .ok (.feed 0x41#8 7#64) := by decide
theorem test_decode_feedStart : decode .escaped ⟨.rx, [0x7E#8], 0⟩ = .ok .feedStart := by decide
theorem test_decode_feedEndIdle : decode .idle ⟨.rx, [0x7F#8], 0⟩ = .ok .feedEndIdle := by decide
theorem test_decode_feedEscIdle : decode .idle ⟨.rx, [0x7D#8], 0⟩ = .ok .feedEscIdle := by decide
theorem test_decode_feedLitIdle : decode .idle ⟨.rx, [0x41#8], 0⟩ = .ok (.feedLitIdle 0x41#8) := by decide
theorem test_decode_feedEndAcc : decode .accumulating ⟨.rx, [0x7F#8], 9#64⟩ = .ok (.feedEndAcc 9#64) := by decide
theorem test_decode_feedEscAcc : decode .accumulating ⟨.rx, [0x7D#8], 0⟩ = .ok .feedEscAcc := by decide
theorem test_decode_feedLitAcc : decode .accumulating ⟨.rx, [0x5E#8], 0⟩ = .ok (.feedLitAcc 0x5E#8) := by decide
theorem test_decode_feedEndEscd : decode .escaped ⟨.rx, [0x7F#8], 0⟩ = .ok .feedEndEscd := by decide
theorem test_decode_feedEscEscd : decode .escaped ⟨.rx, [0x7D#8], 0⟩ = .ok .feedEscEscd := by decide
theorem test_decode_feedLitEscd : decode .escaped ⟨.rx, [0x5E#8], 0⟩ = .ok (.feedLitEscd 0x5E#8) := by decide
theorem test_decode_append : decode .idle ⟨.stage .append, [0xAB#8], 0⟩ = .ok (.append 0xAB#8) := by decide
theorem test_decode_closeLen : decode .idle ⟨.stage .closeLen, [], 0⟩ = .ok .closeLen := by decide
theorem test_decode_closeCk : decode .idle ⟨.stage .closeCk, [], 0⟩ = .ok .closeCk := by decide
theorem test_decode_unpack : decode .idle ⟨.stage .unpack, [], 5#64⟩ = .ok (.unpack 5#64) := by decide
theorem test_decode_reset : decode .escaped ⟨.rst, [], 0⟩ = .ok .reset := by decide
theorem test_decode_rx_two_bytes : decode .idle ⟨.rx, [0x7E#8, 0x7E#8], 0⟩ = .error (.wrongLength .rx 2) := by decide

/-- A `Cfg` whose transformed marker is a marker (`MASK = START XOR END`, rule R64) has no `CFG_WF`, so the block has no
operation under it. -/
theorem test_cfg_not_wf : ¬ ({ cfg with MASK := 0x01#8 } : Cfg).WF := by decide

/-! Meanings (sections 2.1 to 2.7). -/

theorem test_frameNew_top : stageView (exec (.frameNew 15#8 262143#32) (mk idleEnc (decAt .idle 0 [])))
    = some (.frame ⟨15#4, 262143#18, none⟩) := by decide
theorem test_frameNew_noTruncation : stageView (exec (.frameNew 32#8 0#32) (mk idleEnc (decAt .idle 0 [])))
    = some .outOfRange := by decide
theorem test_pack : stageView (exec (.pack 12#4 57005#18) (mk idleEnc (decAt .idle 0 [])))
    = some (.bytes [0xC3#8, 0x7A#8, 0xB4#8]) := by decide
theorem test_pack_top : stageView (exec (.pack 15#4 262143#18) (mk idleEnc (decAt .idle 0 [])))
    = some (.bytes [0xFF#8, 0xFF#8, 0xFC#8]) := by decide
theorem test_cksum : stageView (exec (.cksum 0x54#8 0x8D#8 0x14#8) (mk idleEnc (decAt .idle 0 [])))
    = some (.byte 0xBC#8) := by decide +kernel
theorem test_cksum_order : stageView (exec (.cksum 0xC3#8 0x7A#8 0xB4#8) (mk idleEnc (decAt .idle 0 [])))
    = some (.byte 0x15#8) := by decide +kernel
theorem test_stuff : stageView (exec (.stuff [0x7E#8, 0x7F#8, 0x7D#8, 0x7E#8]) (mk idleEnc (decAt .idle 0 [])))
    = some (.bytes [0x7D#8, 0x5E#8, 0x7D#8, 0x5F#8, 0x7D#8, 0x5D#8, 0x7D#8, 0x5E#8]) := by decide
theorem test_stuff_plain : stageView (exec (.stuff [0x5E#8, 0x5F#8, 0x5D#8, 0x20#8]) (mk idleEnc (decAt .idle 0 [])))
    = some (.bytes [0x5E#8, 0x5F#8, 0x5D#8, 0x20#8]) := by decide
theorem test_delimit : stageView (exec (.delimit []) (mk idleEnc (decAt .idle 0 [])))
    = some (.bytes [0x7E#8, 0x7F#8]) := by decide
theorem test_enc : stageView (exec (.enc 7#8 253820#32) (mk idleEnc (decAt .idle 0 [])))
    = some (.bytes [0x7E#8, 0x7D#8, 0x5F#8, 0x7D#8, 0x5D#8, 0xF0#8, 0xB5#8, 0x7F#8]) := by decide +kernel
theorem test_enc_outOfRange : stageView (exec (.enc 0#8 262144#32) (mk idleEnc (decAt .idle 0 [])))
    = some .outOfRange := by decide
theorem test_encAccept : (nextOf (exec (.encAccept 7#8 0x3DF7C#32) (mk idleEnc (decAt .idle 0 [])))).map (·.enc)
    = some (busyEnc 0 false) := by decide +kernel
theorem test_encAccept_outOfRange :
    (nextOf (exec (.encAccept 16#8 0#32) (mk idleEnc (decAt .idle 0 [])))).map (fun t => (t.enc, t.out.encRsp))
    = some (idleEnc, some .outOfRange) := by decide
theorem test_encEmit_prefix : encView (exec .encEmit (mk (busyEnc 2 false) (decAt .idle 0 [])))
    = some (true, 2, true, some ⟨0x7D#8, false⟩) := by decide
theorem test_encEmit_last : encView (exec .encEmit (mk (busyEnc 5 false) (decAt .idle 0 [])))
    = some (false, 0, false, some ⟨0x7F#8, true⟩) := by decide
theorem test_encEmit_owed : encView (exec .encEmit (mk (busyEnc 1 true) (decAt .idle 0 [])))
    = some (true, 2, false, some ⟨0x5F#8, false⟩) := by decide
theorem test_feed_close : decView (exec (.feed 0x7F#8 77#64) (mk idleEnc (decAt .accumulating 4 [0, 0, 4, 0x1C])))
    = some (.idle, 0, [0, 0, 4, 0x1C], .frame ⟨0#4, 1#18, some 77#64⟩) := by decide +kernel
theorem test_feed_long : decView (exec (.feed 0x06#8 0#64) (mk idleEnc (decAt .accumulating 5 [1, 2, 3, 4])))
    = some (.accumulating, 5, [1, 2, 3, 4], .none) := by decide
theorem test_feedStart : decView (exec .feedStart (mk idleEnc (decAt .escaped 1 [0x11])))
    = some (.accumulating, 0, [0x11], .none) := by decide
theorem test_feedEndIdle : decView (exec .feedEndIdle (mk idleEnc (decAt .idle 0 []))) = some (.idle, 0, [], .none) := by
  decide
theorem test_feedEscIdle : decView (exec .feedEscIdle (mk idleEnc (decAt .idle 0 []))) = some (.idle, 0, [], .none) := by
  decide
theorem test_feedLitIdle : decView (exec (.feedLitIdle 0x41#8) (mk idleEnc (decAt .idle 0 [])))
    = some (.idle, 0, [], .none) := by decide
theorem test_feedEndAcc_checksum :
    (nextOf (exec (.feedEndAcc 0#64) (mk idleEnc (decAt .accumulating 4 [0, 0, 4, 0x1D])))).map
      (fun t => (t.dec.decState, t.dec.feCnt, t.dec.ceCnt, t.out.ev)) = some (.idle, 0#32, 1#32, .checksumError) := by
  decide +kernel
theorem test_feedEndAcc_saturates :
    (nextOf (exec (.feedEndAcc 0#64) (mk idleEnc ⟨.accumulating, 0, [], 4294967295#32, 0#32⟩))).map
      (fun t => (t.dec.feCnt, t.out.ev)) = some (4294967295#32, .framingError) := by decide
theorem test_feedEscAcc : decView (exec .feedEscAcc (mk idleEnc (decAt .accumulating 1 [0])))
    = some (.escaped, 1, [0], .none) := by decide
theorem test_feedLitAcc : decView (exec (.feedLitAcc 0x5E#8) (mk idleEnc (decAt .accumulating 1 [0])))
    = some (.accumulating, 2, [0, 0x5E], .none) := by decide
theorem test_feedLitAcc_fifth : decView (exec (.feedLitAcc 0x05#8) (mk idleEnc (decAt .accumulating 4 [1, 2, 3, 4])))
    = some (.accumulating, 5, [1, 2, 3, 4], .none) := by decide
theorem test_feedEndEscd : decView (exec .feedEndEscd (mk idleEnc (decAt .escaped 3 [0, 0, 4])))
    = some (.accumulating, 4, [0, 0, 4, 0x5F], .none) := by decide
theorem test_feedEscEscd : decView (exec .feedEscEscd (mk idleEnc (decAt .escaped 0 [])))
    = some (.accumulating, 1, [0x5D], .none) := by decide
theorem test_feedLitEscd : decView (exec (.feedLitEscd 0x41#8) (mk idleEnc (decAt .escaped 1 [0x5D])))
    = some (.accumulating, 2, [0x5D, 0x61], .none) := by decide
theorem test_append_overwrites_stale : decView (exec (.append 0x54#8) (mk idleEnc (decAt .accumulating 0 [1, 2])))
    = some (.accumulating, 1, [0x54, 2], .none) := by decide
theorem test_closeLen : (nextOf (exec .closeLen (mk idleEnc (decAt .accumulating 3 [0, 0, 4])))).map
    (fun t => (t.dec.feCnt, t.out.ev)) = some (1#32, .framingError) := by decide
theorem test_closeCk : stageView (exec .closeCk (mk idleEnc (decAt .accumulating 4 [0, 0, 4, 0x1C])))
    = some .passed := by decide +kernel
theorem test_unpack_pad : decView (exec (.unpack 3#64) (mk idleEnc (decAt .accumulating 4 [0, 0, 5, 0x1B])))
    = some (.accumulating, 4, [0, 0, 5, 0x1B], .frame ⟨0#4, 1#18, some 3#64⟩) := by decide +kernel
theorem test_reset : (nextOf (exec .reset (mk (busyEnc 3 false) (decAt .escaped 2 [1, 2])))).map
    (fun t => (t.enc.encBusy, t.enc.encIdx.val, t.dec)) = some (false, 0, decAt .idle 0 []) := by decide

/-! Steps. -/

theorem test_table_word_pack : (nextOf (step (State.reset.withFetchWord 24 0x548D14))).bind (·.out.stage)
    = some (.bytes [0x54#8, 0x8D#8, 0x14#8]) := by decide
theorem test_table_word_start : (nextOf (step (State.reset.withFetchWord 8 0x7E))).map (·.dec.decState)
    = some .accumulating := by decide

/-- A request waits behind a busy encoder; the byte after it is taken (P3). -/
def waiting : State :=
  { mk (busyEnc 3 false) (decAt .idle 0 []) with env := ⟨false, [encode (.encAccept 1#8 2#32), ⟨.rx, [0x7E#8], 0⟩]⟩ }

theorem test_request_waits : (nextOf (step waiting)).map (fun t => (t.enc, t.dec.decState, t.env.pend))
    = some (busyEnc 3 false, .accumulating, [encode (.encAccept 1#8 2#32)]) := by decide
theorem test_rst_wins : (nextOf (step { waiting with env := { waiting.env with rst := true } })).map
    (fun t => (t.enc.encBusy, t.dec.decState, t.env.pend)) = some (false, .idle, waiting.env.pend) := by decide
theorem test_before_reset : nextOf (step { waiting with hasReset := false }) = none := by decide

/-- `loop 0, 1` is one request, six `emit`s and six `feed`s (sections 2.6, R54). -/
theorem test_script_loop : (loopLines 0#8 1#32 5#64).map ScriptLine.word
    = encode (.encAccept 0#8 1#32) :: (List.replicate 6 (encode .encEmit) ++
      [0x7E#8, 0x00#8, 0x00#8, 0x04#8, 0x1C#8, 0x7F#8].map fun b => ⟨.rx, [b], 5#64⟩) := by decide +kernel

/-! Witnesses. For every statement with hypotheses a concrete input that meets them, one for each clause at its
boundary values; the name is the statement's. -/

/-- A checked body, `PACK(0, 1)` with its checksum (section 2.1). -/
def good : List Byte := [0x00#8, 0x00#8, 0x04#8, 0x1C#8]

/-- The same with one bit of the checksum wrong. -/
def bad : List Byte := [0x00#8, 0x00#8, 0x04#8, 0x1D#8]

/-- A state with an idle encoder and the decoder somewhere. -/
def sAt (st : DecState) (n : Fin 6) (buf : List Byte) : State := mk idleEnc (decAt st n buf)

/-- A next state that a test of it picks out. -/
theorem next_of {r : Result} (p : State → Bool) (h : (nextOf r).any p = true) : ∃ t, r = .next t ∧ p t = true := by
  cases r with
  | next t => exact ⟨t, rfl, h⟩
  | fault f => cases h
  | refused q => cases h

/-- A checksum other than the default one, the XOR of the bytes. -/
def xorCfg : Cfg := { cfg with CK := fun a b c => a ^^^ b ^^^ c }

theorem witness_ResetFromAnyState : ({ waiting with env := ⟨true, waiting.env.pend⟩ } : State).env.rst = true := rfl

theorem witness_FrameNewValidates :
    ((0 : Int) ≤ 15 ∧ (15 : Int) ≤ 15 ∧ (0 : Int) ≤ 262143 ∧ (262143 : Int) ≤ 262143) ∧
    ¬ ((0 : Int) ≤ 16 ∧ (16 : Int) ≤ 15 ∧ (0 : Int) ≤ 0 ∧ (0 : Int) ≤ 262143) ∧
    ¬ ((0 : Int) ≤ 0 ∧ (0 : Int) ≤ 15 ∧ (0 : Int) ≤ -1 ∧ (-1 : Int) ≤ 262143) := by decide

theorem witness_NegativeRequestRefused : (sAt .idle 0 []).enc.encBusy = false ∧ (sAt .idle 0 []).enc.encEsc = false ∧
    (-128 ≤ (-128 : Int) ∧ (-128 : Int) < 0) ∧ (-128 ≤ (-1 : Int) ∧ (-1 : Int) < 0) ∧
    (-2147483648 ≤ (-2147483648 : Int) ∧ (-2147483648 : Int) < 0) := by decide

theorem witness_PackInjective : pack 15#4 262143#18 = pack (0#4 + 15#4) 262143#18 := by decide

theorem witness_DefaultChecksumDetects : (1 ≤ weight 1#32 ∧ weight 1#32 ≤ 3) ∧
    (1 ≤ weight 0x80000101#32 ∧ weight 0x80000101#32 ≤ 3) ∧
    (0xFF#8 : Byte).zeroExtend 32 <<< 24 ≠ 0#32 ∧ (0x01#8 : Byte).zeroExtend 32 <<< 31 ≠ 0#32 := by decide

theorem witness_StuffEscapesMarkers : cfg.WF ∧ (stuff cfg [0x00#8, 0x7D#8])[1]? = some cfg.ESC := by decide

theorem witness_EncIsTheStagesInOrder : ((15#8).toNat ≤ 15 ∧ (262143#32).toNat ≤ 262143) ∧
    ¬ ((16#8).toNat ≤ 15 ∧ (0#32).toNat ≤ 262143) ∧ ¬ ((0#8).toNat ≤ 15 ∧ (262144#32).toNat ≤ 262143) := by decide

theorem witness_EncodingInjective : frameBytes cfg 7#4 0x3A000#18 = frameBytes cfg (6#4 + 1#4) 0x3A000#18 := by
  decide +kernel

theorem witness_FramesAreMarkerFree : cfg.WF ∧
    frameBytes cfg 7#4 0x3A000#18 = [cfg.START] ++ [0x7D#8, 0x5E#8, 0x80#8, 0x00#8, 0xFD#8] ++ [cfg.END] ∧
    ([0x7D#8, 0x5E#8, 0x80#8, 0x00#8, 0xFD#8] : List Byte)[0]? = some cfg.ESC := by decide +kernel

theorem witness_EncAcceptAnswers : (sAt .idle 0 []).enc.encBusy = false ∧ (sAt .idle 0 []).enc.encEsc = false ∧
    ((15#8).toNat ≤ 15 ∧ (262143#32).toNat ≤ 262143) ∧ ¬ ((15#8).toNat ≤ 15 ∧ (262144#32).toNat ≤ 262143) := by decide

theorem witness_DisabledOperationsWait : (mk (busyEnc 0 false) (decAt .idle 0 [])).enc.encBusy = true ∧
    (mk idleEnc (decAt .idle 0 [])).enc.encBusy = false := by decide

/-- Positions 0 and 5; the owed byte and the marker at position 1; a plain byte at position 4. -/
theorem witness_EncEmitSequence : (busyEnc 0 false).encBusy = true ∧ (busyEnc 0 false).encIdx.val = 0 ∧
    (busyEnc 5 false).encIdx.val = 5 ∧
    (1 ≤ (busyEnc 1 true).encIdx.val ∧ (busyEnc 1 true).encWord.toList[(busyEnc 1 true).encIdx.val - 1]? = some 0x7F#8 ∧
      (busyEnc 1 true).encEsc = true ∧ (busyEnc 1 false).encEsc = false) ∧
    (1 ≤ (busyEnc 4 false).encIdx.val ∧
      (busyEnc 4 false).encWord.toList[(busyEnc 4 false).encIdx.val - 1]? = some 0xB5#8 ∧
      (busyEnc 4 false).encEsc = false) := by decide

theorem witness_StreamingEqualsFunction : idleEnc.encBusy = false ∧ idleEnc.Inv cfg ∧
    encodeFrame cfg (0#8).toNat (1#32).toNat = some [0x7E#8, 0x00#8, 0x00#8, 0x04#8, 0x1C#8, 0x7F#8] ∧
    encodeFrame cfg (16#8).toNat (1#32).toNat = none := by
  refine ⟨rfl, ?_, by decide +kernel, by decide⟩
  unfold Enc.Inv; decide

/-- The three decoder states with the two marker bytes and a literal. -/
theorem witness_FeedIsOneOfTenCases : (sAt .idle 0 []).dec.decState = .idle ∧
    (sAt .accumulating 4 good).dec.decState = .accumulating ∧ (sAt .escaped 3 good).dec.decState = .escaped ∧
    (0x41#8 : Byte) ≠ 0x7E#8 ∧ (0x41#8 : Byte) ≠ 0x7F#8 ∧ (0x41#8 : Byte) ≠ 0x7D#8 := by decide

/-- At both ends of the length's range in each state. -/
theorem witness_FeedFollowsTheTable : (sAt .idle 0 []).dec.Inv ∧ (sAt .accumulating 0 []).dec.Inv ∧
    (sAt .accumulating 4 good).dec.Inv ∧ (sAt .accumulating 5 good).dec.Inv ∧ (sAt .escaped 3 [0x00#8, 0x00#8, 0x04#8]).dec.Inv ∧
    (sAt .escaped 5 good).dec.Inv := by
  unfold Dec.Inv Dec.BufInv; decide

theorem witness_FeedIdleDrops : (sAt .idle 0 []).dec.decState = .idle ∧
    (0x41#8 : Byte) ∉ [0x7E#8, 0x7F#8, 0x7D#8] := by decide

theorem witness_FeedEscEscapes : (sAt .accumulating 1 good).dec.decState = .accumulating := rfl

/-- The clauses of `appended` at lengths 3, 4 and 5 are the next ones too. -/
theorem witness_FeedLiteralAppends : (sAt .accumulating 3 good).dec.decState = .accumulating ∧
    (0x5E#8 : Byte) ∉ [0x7E#8, 0x7F#8, 0x7D#8] ∧ (sAt .accumulating 3 good).dec.decLen.val < 4 ∧
    4 ≤ (sAt .accumulating 4 good).dec.decLen.val ∧ 4 ≤ (sAt .accumulating 5 good).dec.decLen.val := by decide

theorem witness_FeedEscapedDestuffs : (sAt .escaped 0 []).dec.decState = .escaped ∧
    (0x41#8 : Byte) ∉ [0x7E#8, 0x7F#8, 0x7D#8] := by decide

/-- A close at lengths 3 and 5, a match and a mismatch at 4. -/
theorem witness_FeedEndCloses : (sAt .accumulating 3 good).dec.decState = .accumulating ∧
    (sAt .accumulating 3 good).dec.decLen.val ≠ 4 ∧ (sAt .accumulating 5 good).dec.decLen.val ≠ 4 ∧
    (sAt .accumulating 4 good).dec.decLen.val = 4 ∧
    (sAt .accumulating 4 good).dec.holds 0x00#8 0x00#8 0x04#8 0x1C#8 ∧ crc8 0x00#8 0x00#8 0x04#8 = 0x1C#8 ∧
    (sAt .accumulating 4 bad).dec.holds 0x00#8 0x00#8 0x04#8 0x1D#8 ∧ crc8 0x00#8 0x00#8 0x04#8 ≠ 0x1D#8 := by
  unfold Dec.holds; decide +kernel

theorem witness_CloseLenTestsLength : (sAt .accumulating 5 good).dec.decLen.val ≠ 4 ∧
    (sAt .accumulating 3 good).dec.decLen.val ≠ 4 ∧ (sAt .accumulating 4 good).dec.decLen.val = 4 := by decide

theorem witness_CloseCkTestsChecksum : (sAt .accumulating 4 bad).dec.decLen.val = 4 ∧
    (sAt .accumulating 4 bad).dec.holds 0x00#8 0x00#8 0x04#8 0x1D#8 ∧ crc8 0x00#8 0x00#8 0x04#8 ≠ 0x1D#8 ∧
    (sAt .accumulating 4 good).dec.holds 0x00#8 0x00#8 0x04#8 0x1C#8 ∧ crc8 0x00#8 0x00#8 0x04#8 = 0x1C#8 := by
  unfold Dec.holds; decide +kernel

theorem witness_UnpackEmitsTheFrame : (sAt .accumulating 4 good).dec.decLen.val = 4 ∧
    (sAt .accumulating 4 good).dec.holds 0x00#8 0x00#8 0x04#8 0x1C#8 ∧ crc8 0x00#8 0x00#8 0x04#8 = 0x1C#8 := by
  unfold Dec.holds; decide +kernel

theorem witness_GuardsRefuseByName : (sAt .escaped 0 []).dec.decState ≠ .idle ∧
    (sAt .idle 0 []).dec.decState ≠ .accumulating ∧ (sAt .accumulating 0 []).dec.decState ≠ .escaped ∧
    (sAt .accumulating 3 good).dec.decLen.val ≠ 4 ∧ (sAt .accumulating 4 bad).dec.decLen.val = 4 ∧
    (sAt .accumulating 4 bad).dec.holds 0x00#8 0x00#8 0x04#8 0x1D#8 ∧ crc8 0x00#8 0x00#8 0x04#8 ≠ 0x1D#8 ∧
    ({ idleEnc with encEsc := true } : Enc).encBusy = false ∧ ({ idleEnc with encEsc := true } : Enc).encEsc = true := by
  unfold Dec.holds; decide +kernel

/-- The two bodies of section 2.6 that differ in the pad bits and the checksum. -/
theorem witness_PadBitsIgnored : (sAt .accumulating 4 good).dec.decState = .accumulating ∧
    (sAt .accumulating 4 good).dec.decLen.val = 4 ∧
    (sAt .accumulating 4 good).dec.holds 0x00#8 0x00#8 (1#6 ++ 0#2) (crc8 0x00#8 0x00#8 (1#6 ++ 0#2)) ∧
    (sAt .accumulating 4 [0x00#8, 0x00#8, 0x05#8, 0x1B#8]).dec.holds 0x00#8 0x00#8 (1#6 ++ 1#2)
      (crc8 0x00#8 0x00#8 (1#6 ++ 1#2)) := by
  unfold Dec.holds; decide +kernel

theorem witness_EventsComeFromCloses :
    ∃ t u, exec (.feed 0x7F#8 0#64) (sAt .accumulating 3 good) = .next t ∧ t.out.ev = .framingError ∧
      exec (.feed 0x7F#8 0#64) (sAt .idle 0 []) = .next u ∧ u.out.ev = .none :=
  ⟨_, _, rfl, by decide, rfl, by decide⟩

theorem witness_CountersCountTheirErrors : Instr.closeLen ≠ .reset ∧ Instr.closeCk ≠ .reset ∧
    (∃ t, exec .closeLen (sAt .accumulating 3 good) = .next t ∧ (t.out.ev == .framingError) = true) ∧
    (∃ t, exec .closeCk (sAt .accumulating 4 bad) = .next t ∧ (t.out.ev == .checksumError) = true) :=
  ⟨by decide, by decide, next_of (·.out.ev == .framingError) (by decide),
    next_of (·.out.ev == .checksumError) (by decide +kernel)⟩

/-- A frame of six bytes, five times and the last. -/
theorem witness_RoundTripLaw : cfg.WF ∧ (frameBytes cfg 0#4 1#18).length
    = ([1#64, 2#64, 3#64, 4#64, 5#64] : List (BitVec 64)).length + 1 := by decide +kernel

theorem witness_StartForgetsThePast : (decAt .escaped 5 good).feCnt = (decAt .idle 0 []).feCnt ∧
    (decAt .escaped 5 good).ceCnt = (decAt .idle 0 []).ceCnt := by decide

/-- Garbage without `START`, garbage without `END`. -/
theorem witness_GarbagePrefixRecovers : cfg.WF ∧ (frameBytes cfg 0#4 1#18).length
    = ([1#64, 2#64, 3#64, 4#64, 5#64] : List (BitVec 64)).length + 1 ∧
    (∀ x ∈ ([(0x7F#8, 0#64), (0x7D#8, 0#64)] : List (Byte × BitVec 64)), x.1 ≠ cfg.START) ∧
    (∀ x ∈ ([(0x7E#8, 0#64), (0x7D#8, 0#64)] : List (Byte × BitVec 64)), x.1 ≠ cfg.END) :=
  ⟨by decide, by decide +kernel, by simp, by simp⟩

/-- The bytes of a body. -/
theorem body32_bytes (b0 b1 b2 ck : Byte) :
    (body32 b0 b1 b2 ck).extractLsb' 24 8 = b0 ∧ (body32 b0 b1 b2 ck).extractLsb' 16 8 = b1 ∧
    (body32 b0 b1 b2 ck).extractLsb' 8 8 = b2 ∧ (body32 b0 b1 b2 ck).extractLsb' 0 8 = ck := by
  refine ⟨?_, ?_, ?_, ?_⟩ <;> apply BitVec.eq_of_getLsbD_eq <;> intro i hi <;> interval_cases i <;>
    simp only [body32, BitVec.getLsbD_extractLsb', BitVec.getLsbD_append] <;> rfl

/-- The XOR of the bytes detects a flip of any one bit. -/
theorem xorCfg_ckSbe : xorCfg.CkSbe := by
  intro b0 b1 b2 k h
  obtain ⟨h0, h1, h2, h3⟩ := body32_bytes b0 b1 b2 (b0 ^^^ b1 ^^^ b2)
  simp only [Cfg.bodyChecks, xorCfg, BitVec.extractLsb'_xor, h0, h1, h2, h3] at h
  have key : ∀ k : Fin 32, (BitVec.twoPow 32 k).extractLsb' 24 8 ^^^ (BitVec.twoPow 32 k).extractLsb' 16 8 ^^^
      (BitVec.twoPow 32 k).extractLsb' 8 8 ≠ (BitVec.twoPow 32 k).extractLsb' 0 8 := by decide
  exact key k ((BitVec.xor_right_inj (b0 ^^^ b1 ^^^ b2)).mp (Eq.trans (by ac_rfl) h))

theorem witness_BodyBitFlipIsChecksumError : xorCfg.WF ∧ xorCfg.CkSbe ∧
    (frameBytes xorCfg 0#4 1#18).length = ([1#64, 2#64, 3#64, 4#64, 5#64, 6#64] : List (BitVec 64)).length ∧
    1 ≤ 1 ∧ 1 + 1 < (frameBytes xorCfg 0#4 1#18).length ∧ (frameBytes xorCfg 0#4 1#18)[1]? = some 0x00#8 ∧
    (frameBytes xorCfg 0#4 1#18)[4]? = some 0x04#8 ∧ 4 + 1 < (frameBytes xorCfg 0#4 1#18).length ∧
    (0x00#8 : Byte) ≠ xorCfg.ESC ∧ 0x00#8 ^^^ BitVec.twoPow 8 (7 : Fin 8) ∉ xorCfg.markers ∧
    (0x04#8 : Byte) ≠ xorCfg.ESC ∧ 0x04#8 ^^^ BitVec.twoPow 8 (0 : Fin 8) ∉ xorCfg.markers := by
  refine ⟨by decide, xorCfg_ckSbe, ?_⟩
  decide +kernel

/-- The `START`, a body byte and the `END` of a frame. -/
theorem witness_SingleBitFlipNeverAFrame :
    (frameBytes cfg 0#4 1#18).length = ([1#64, 2#64, 3#64, 4#64, 5#64, 6#64] : List (BitVec 64)).length ∧
    (frameBytes cfg 0#4 1#18)[0]? = some 0x7E#8 ∧ (frameBytes cfg 0#4 1#18)[3]? = some 0x04#8 ∧
    (frameBytes cfg 0#4 1#18)[5]? = some 0x7F#8 := by decide +kernel

/-- Two frames, with a stray byte before the second. -/
theorem witness_FramesDeliveredInOrder : cfg.WF ∧ (decAt .idle 0 []).decState = .idle ∧
    (∀ f ∈ ([([], 0#4, 1#18), ([0x7F#8], 0#4, 2#18)] : List (List Byte × BitVec 4 × BitVec 18)), cfg.START ∉ f.1) ∧
    (([([], 0#4, 1#18), ([0x7F#8], 0#4, 2#18)] : List (List Byte × BitVec 4 × BitVec 18)).flatMap fun f =>
      f.1 ++ frameBytes cfg f.2.1 f.2.2).length = (List.replicate 13 0#64).length := by decide +kernel

theorem witness_LoopbackDeliversTheFrame : (sAt .escaped 5 good).enc.encBusy = false ∧
    (sAt .escaped 5 good).enc.encEsc = false ∧ (15#8).toNat ≤ 15 ∧ (262143#32).toNat ≤ 262143 := by decide

/-- A control state at both ends; a stream after which the decoder is in `IDLE`. -/
theorem witness_ThirteenControlStates : (DecState.escaped = .idle → (5 : Fin 6) = 0) ∧
    (DecState.idle = .idle → (0 : Fin 6) = 0) ∧
    decodeStream cfg (Dec.reset 32) [(0x7F#8, 0#64)] = .ok (Dec.reset 32, []) ∧ (Dec.reset 32).decState = .idle := by
  refine ⟨by decide, fun _ => rfl, rfl, rfl⟩

theorem witness_BlocksAreIndependent :
    ∃ t u, exec .encEmit (mk (busyEnc 0 false) (decAt .idle 0 [])) = .next t ∧ Instr.encEmit ≠ .reset ∧
      exec .feedStart (sAt .idle 0 []) = .next u ∧ Instr.feedStart ≠ .reset ∧ Instr.feedStart ≠ .encEmit ∧
      ∀ cmd data, Instr.feedStart ≠ .encAccept cmd data :=
  ⟨_, _, rfl, by decide, rfl, by decide, by decide, by intros; simp⟩

theorem witness_BlocksCommute :
    ∃ s₁ s₂, exec .encEmit (mk (busyEnc 0 false) (decAt .idle 0 [])) = .next s₁ ∧
      exec (.feed 0x7E#8 0#64) (mk (busyEnc 0 false) (decAt .idle 0 [])) = .next s₂ :=
  ⟨_, _, rfl, rfl⟩

/-- A configuration other than the default one: markers, mask, checksum and every width. -/
def wideCfg : Cfg where
  START := 0x02#8
  END := 0x03#8
  ESC := 0x10#8
  MASK := 0x80#8
  CK := fun a b c => a ^^^ b ^^^ c
  W_CMD_IN := 12
  W_DATA_IN := 40
  TS_W := 16
  CNT_W := 2

theorem test_wideCfg_wf : wideCfg.WF := by decide

/-- `loop 5, 0x12345` by hand from rules R55 to R62 and R70 to R84 under `wideCfg`: no byte of the body `54 8D 14 CD`
is a marker there, the close stamps a 16-bit time, and the 2-bit counter is where it was. -/
theorem test_block_wideCfg :
    (match Block.run wideCfg test_wideCfg_wf 0 (.accept 5#12 0x12345#40 :: List.replicate 6 .emit ++
        [0x02#8, 0x54#8, 0x8D#8, 0x14#8, 0xCD#8, 0x03#8].map (Op.feed · 7#16)) (Block.reset wideCfg test_wideCfg_wf 0) with
      | .next (b, os) => some (os.filterMap (·.tx), (os.map (·.ev)).filter (· != .none), b.dec.feCnt)
      | .fault _ => none
      | .refused _ => none)
    = some ([⟨0x02#8, false⟩, ⟨0x54#8, false⟩, ⟨0x8D#8, false⟩, ⟨0x14#8, false⟩, ⟨0xCD#8, false⟩, ⟨0x03#8, true⟩],
      [.frame ⟨5#4, 0x12345#18, some 7#16⟩], 0#2) := by decide +kernel

/-- A 12-bit command with a high bit set is out of range at that port (rule R61); the 2-bit counter saturates at 3
(rule R18). -/
theorem test_block_widths :
    (match Block.step wideCfg test_wideCfg_wf 0 (.accept 0x805#12 0#40) (Block.reset wideCfg test_wideCfg_wf 0) with
      | .next (b, o) => some (b.enc.encBusy, o.encRsp)
      | .fault _ => none
      | .refused _ => none) = some (false, some .outOfRange) ∧
    (match Block.step wideCfg test_wideCfg_wf 0 (.feed 0x03#8 0#16) ⟨Enc.reset 0, ⟨.accumulating, 0, [], 3#2, 0#2⟩⟩ with
      | .next (b, o) => some (b.dec.feCnt, o.ev)
      | .fault _ => none
      | .refused _ => none) = some (3#2, .framingError) := by decide +kernel

/-- An encoder in a frame with an escape owed, an open decoder frame, a byte offered. -/
def midway : State :=
  { mk (busyEnc 1 true) (decAt .accumulating 4 good) with env := ⟨false, [⟨.rx, [0x7F#8], 0⟩]⟩ }

theorem witness_EveryStepKeepsInvariants : midway.Inv ∧ midway.offersAtPorts ∧
    (∃ t, step midway = .next t ∧ (t.dec.decState == .idle) = true) ∧ (Block.reset wideCfg test_wideCfg_wf 0).Inv wideCfg ∧
    ∃ b' o, Block.step wideCfg test_wideCfg_wf 0 (.accept 5#12 0x12345#40) (Block.reset wideCfg test_wideCfg_wf 0) = .next (b', o) ∧
      b'.enc.encBusy = true := by
  refine ⟨⟨?_, ?_⟩, ?_, next_of (·.dec.decState == .idle) (by decide +kernel), ⟨?_, ?_⟩, ⟨_, _, rfl, by decide⟩⟩
  · unfold Enc.Inv; decide +kernel
  · unfold Dec.Inv Dec.BufInv; decide
  · unfold State.offersAtPorts; decide
  · exact ⟨fun _ => ⟨rfl, rfl⟩, ⟨fun h => absurd h (by decide), fun h => absurd h (by decide)⟩⟩
  · exact ⟨⟨rfl, by intro i h; simp at h⟩, fun _ => rfl⟩

theorem witness_EveryStepKeepsStorage : midway.enc.Inv cfg ∧ midway.dec.BufInv ∧
    ∃ t, step midway = .next t ∧ (t.dec.decState == .idle) = true := by
  refine ⟨?_, ?_, next_of (·.dec.decState == .idle) (by decide +kernel)⟩
  · unfold Enc.Inv; decide +kernel
  · unfold Dec.BufInv; decide

theorem witness_NoFaultUnderInvariants : (sAt .accumulating 4 good).dec.BufInv := by
  unfold Dec.BufInv; decide

theorem witness_PortsShowTheBlock :
    ∃ t u, exec .encEmit (mk (busyEnc 0 false) (decAt .idle 0 [])) = .next t ∧ t.out.tx = some ⟨0x7E#8, false⟩ ∧
      exec (.feed 0x7E#8 0#64) (mk (busyEnc 0 false) (decAt .idle 0 [])) = .next u :=
  ⟨_, _, rfl, by decide, rfl⟩

theorem witness_StepRunsTheOffer : midway.env.rst = false ∧ midway.hasReset = true ∧
    firstReady midway.enc.encBusy midway.env.pend = some (⟨.rx, [0x7F#8], 0⟩, []) ∧
    decode midway.dec.decState ⟨.rx, [0x7F#8], 0⟩ = .ok (.feedEndAcc 0) := by decide

/-- A request behind a busy encoder; nothing that can be served. -/
theorem witness_RequestsWaitWhileBusy : waiting.enc.encBusy = true ∧ waiting.env.rst = false ∧
    (encode (.encAccept 1#8 2#32)).lane = .encReq ∧
    waiting.env.pend = encode (.encAccept 1#8 2#32) :: [⟨.rx, [0x7E#8], 0⟩] ∧ (∃ t, step waiting = .next t) ∧
    (∀ w ∈ [encode (.encAccept 1#8 2#32)], laneReady waiting.enc.encBusy w.lane = false) :=
  ⟨rfl, rfl, rfl, rfl, ⟨_, rfl⟩, by decide⟩

/-- A cold machine with nothing offered, and one with the pin high. -/
def cold (rst : Bool) : State := { mk idleEnc (decAt .idle 0 []) with env := ⟨rst, []⟩, hasReset := false }

theorem witness_NothingRunsBeforeReset : (cold false).hasReset = false ∧ (∃ t, step (cold false) = .next t) ∧
    (cold true).hasReset = false ∧ ∃ t, step (cold true) = .next t ∧ t.hasReset = true :=
  ⟨rfl, ⟨_, rfl⟩, rfl, _, rfl, rfl⟩

/-- The widest request, and a case selected by its decoder state. -/
theorem witness_DecodeOfEncode : (Instr.encAccept 255#8 4294967295#32).wf = true ∧
    (Instr.encAccept 255#8 4294967295#32).selectedIn .escaped = true ∧ (Instr.feedLitEscd 0x5E#8).wf = true ∧
    (Instr.feedLitEscd 0x5E#8).selectedIn .escaped = true := by decide

theorem witness_DecodeIsSelective : decode .escaped ⟨.rx, [0x5E#8], 0⟩ = .ok (.feedLitEscd 0x5E#8) := by decide

end Sys2Proof.Machine.Tests
end

/-! O55: which operation a step performs (rules R10, R20, R21). -/

namespace Sys2Proof.Machine

/-- The fetch after a first reset and with the pin low: the oldest ready offer, taken out of the environment. -/
theorem fetch_of_firstReady {s : State} {w : OpWord} {rest : List OpWord} {i : Instr} (hrst : s.env.rst = false)
    (hreset : s.hasReset = true) (hready : firstReady s.enc.encBusy s.env.pend = some (w, rest))
    (hdec : decode s.dec.decState w = .ok i) :
    fetch s = .run i { s with env := { s.env with pend := rest } } := by
  simp [fetch, hrst, hreset, hready, hdec]

/-- Settles O55: a step is `exec` of what `fetch` hands it. -/
theorem stepRunsTheOffer : Obligations.StepRunsTheOffer := by
  intro s w rest i hrst hreset hready hdec
  rw [step, fetch_of_firstReady hrst hreset hready hdec]

end Sys2Proof.Machine

/-! XOR-linear maps on words: such a map is determined by its values on the single bits. -/

namespace Sys2Proof.Machine

/-- `f` turns XOR into XOR: it is linear over GF(2). -/
def XorLinear {m n : Nat} (f : BitVec m → BitVec n) : Prop := ∀ a b, f (a ^^^ b) = f a ^^^ f b

/-- The word whose set bits are those of the list (each listed once). -/
def ofBits (w : Nat) (l : List Nat) : BitVec w := l.foldr (fun k acc => BitVec.twoPow w k ^^^ acc) 0#w

theorem ofBits_cons (w k : Nat) (l : List Nat) : ofBits w (k :: l) = BitVec.twoPow w k ^^^ ofBits w l := rfl

/-- The positions of the set bits of a word, lowest first. -/
def setBits {w : Nat} (e : BitVec w) : List Nat := (List.range w).filter (e.getLsbD ·)

theorem setBits_nodup {w : Nat} (e : BitVec w) : (setBits e).Nodup := List.nodup_range.filter _

theorem lt_of_mem_setBits {w k : Nat} {e : BitVec w} (h : k ∈ setBits e) : k < w :=
  List.mem_range.mp (List.mem_of_mem_filter h)

theorem length_setBits (e : BitVec 32) : (setBits e).length = weight e := List.countP_eq_length_filter.symm

theorem getLsbD_ofBits {w : Nat} {l : List Nat} (hl : l.Nodup) (i : Nat) :
    (ofBits w l).getLsbD i = (decide (i < w) && decide (i ∈ l)) := by
  induction l with
  | nil => simp [ofBits]
  | cons k l ih =>
    obtain ⟨hk, hl⟩ := List.nodup_cons.mp hl
    rw [ofBits_cons, BitVec.getLsbD_xor, BitVec.getLsbD_twoPow, ih hl]
    by_cases hik : k = i
    · subst hik; simp [hk]
    · simp [hik, Ne.symm hik]

/-- Every word is the XOR of its set bits. -/
theorem ofBits_setBits {w : Nat} (e : BitVec w) : ofBits w (setBits e) = e := by
  apply BitVec.eq_of_getLsbD_eq
  intro i hi
  rw [getLsbD_ofBits (setBits_nodup e)]
  simp [setBits, hi]

namespace XorLinear

variable {m n : Nat} {f g : BitVec m → BitVec n}

theorem map_zero (hf : XorLinear f) : f 0#m = 0#n := by
  simpa using hf 0#m 0#m

theorem comp {k : Nat} {f : BitVec n → BitVec k} (hf : XorLinear f) (hg : XorLinear g) :
    XorLinear (fun a => f (g a)) := fun a b => (congrArg f (hg a b)).trans (hf _ _)

/-- Two linear maps that agree on the single bits are equal. -/
theorem ext (hf : XorLinear f) (hg : XorLinear g)
    (h : ∀ k < m, f (BitVec.twoPow m k) = g (BitVec.twoPow m k)) (e : BitVec m) : f e = g e := by
  have key : ∀ l : List Nat, (∀ k ∈ l, k < m) → f (ofBits m l) = g (ofBits m l) := by
    intro l hl
    induction l with
    | nil => exact hf.map_zero.trans hg.map_zero.symm
    | cons k l ih =>
      obtain ⟨hk, hl⟩ := List.forall_mem_cons.mp hl
      rw [ofBits_cons, hf, hg, h k hk, ih hl]
  rw [← ofBits_setBits e]
  exact key _ fun _ => lt_of_mem_setBits

end XorLinear

end Sys2Proof.Machine

/-! The rounds of the CRC (rule R57): linear, and injective, since the polynomial has a constant term. -/

namespace Sys2Proof.Machine

theorem crcShift_xorLinear : XorLinear crcShift := by
  intro a b
  simp only [crcShift, BitVec.msb_xor, BitVec.shiftLeft_xor_distrib]
  cases a.msb <;> cases b.msb <;> simp only [Bool.xor_false, Bool.xor_true, Bool.not_false, Bool.not_true, if_true,
    Bool.false_eq_true, if_false]
  · ac_rfl
  · ac_rfl
  · rw [show a <<< 1 ^^^ 7#8 ^^^ (b <<< 1 ^^^ 7#8) = a <<< 1 ^^^ b <<< 1 ^^^ (7#8 ^^^ 7#8) by ac_rfl, BitVec.xor_self,
      BitVec.xor_zero]

theorem crcRounds_xorLinear (n : Nat) : XorLinear (crcRounds n) := by
  induction n with
  | zero => exact fun _ _ => rfl
  | succ n ih => exact ih.comp crcShift_xorLinear

theorem crcRounds_add (m n : Nat) (b : Byte) : crcRounds (m + n) b = crcRounds m (crcRounds n b) := by
  induction n generalizing b with
  | zero => rfl
  | succ n ih => exact ih (crcShift b)

/-- The shift loses nothing: a top bit that falls out comes back in bit 0. -/
theorem eq_zero_of_crcShift_eq_zero {b : Byte} (h : crcShift b = 0#8) : b = 0#8 := by
  revert b; decide

theorem eq_zero_of_crcRounds_eq_zero {n : Nat} {b : Byte} (h : crcRounds n b = 0#8) : b = 0#8 := by
  induction n generalizing b with
  | zero => exact h
  | succ n ih => exact eq_zero_of_crcShift_eq_zero (ih h)

theorem crc8Update_xor (a b c d : Byte) : crc8Update (a ^^^ b) (c ^^^ d) = crc8Update a c ^^^ crc8Update b d := by
  have hswap : a ^^^ b ^^^ (c ^^^ d) = (a ^^^ c) ^^^ (b ^^^ d) := by ac_rfl
  rw [crc8Update, hswap, crcRounds_xorLinear]; rfl

theorem crc8_xor (a0 a1 a2 b0 b1 b2 : Byte) :
    crc8 (a0 ^^^ b0) (a1 ^^^ b1) (a2 ^^^ b2) = crc8 a0 a1 a2 ^^^ crc8 b0 b1 b2 := by
  simp only [crc8, ← crc8Update_xor, BitVec.xor_self]

end Sys2Proof.Machine

/-! The syndrome: what the check of rule R83 compares, as one linear function of the 32-bit body. The syndrome of
bit `k` is `x^k` modulo the polynomial, `k` rounds of the CRC applied to 1. -/

namespace Sys2Proof.Machine

/-- The checksum of a body's first three bytes against its fourth: 0 exactly for a body that passes the check. -/
def syndrome (w : BitVec 32) : Byte :=
  crc8 (w.extractLsb' 24 8) (w.extractLsb' 16 8) (w.extractLsb' 8 8) ^^^ w.extractLsb' 0 8

theorem bodyChecks_iff_syndrome (w : BitVec 32) : cfg.bodyChecks w ↔ syndrome w = 0#8 :=
  BitVec.xor_eq_zero_iff.symm

theorem syndrome_xorLinear : XorLinear syndrome := by
  intro a b
  simp only [syndrome, BitVec.extractLsb'_xor, crc8_xor]
  ac_rfl

theorem extractLsb'_body32 (b0 b1 b2 ck : Byte) :
    (body32 b0 b1 b2 ck).extractLsb' 24 8 = b0 ∧ (body32 b0 b1 b2 ck).extractLsb' 16 8 = b1 ∧
    (body32 b0 b1 b2 ck).extractLsb' 8 8 = b2 ∧ (body32 b0 b1 b2 ck).extractLsb' 0 8 = ck := by
  unfold body32
  refine ⟨?_, ?_, ?_, BitVec.extractLsb'_append_eq_right⟩ <;> rw [BitVec.extractLsb'_append_eq_of_le (by decide)]
  · rw [BitVec.extractLsb'_append_eq_of_le (by decide)]
    exact BitVec.extractLsb'_append_eq_left
  · rw [BitVec.extractLsb'_append_eq_of_le (by decide)]
    exact BitVec.extractLsb'_append_eq_right
  · exact BitVec.extractLsb'_append_eq_right

theorem syndrome_body32 (b0 b1 b2 ck : Byte) : syndrome (body32 b0 b1 b2 ck) = crc8 b0 b1 b2 ^^^ ck := by
  obtain ⟨h0, h1, h2, h3⟩ := extractLsb'_body32 b0 b1 b2 ck
  rw [syndrome, h0, h1, h2, h3]

/-- An error pattern goes undetected exactly when its own syndrome is 0, whatever the body. -/
theorem bodyChecks_error_iff (b0 b1 b2 : Byte) (e : BitVec 32) :
    cfg.bodyChecks (body32 b0 b1 b2 (crc8 b0 b1 b2) ^^^ e) ↔ syndrome e = 0#8 := by
  rw [bodyChecks_iff_syndrome, syndrome_xorLinear, syndrome_body32, BitVec.xor_self, BitVec.zero_xor]

theorem syndrome_twoPow {k : Nat} (hk : k < 32) : syndrome (BitVec.twoPow 32 k) = crcRounds k 1#8 := by
  have bits : ∀ k : Fin 32, syndrome (BitVec.twoPow 32 k) = crcRounds k 1#8 := by decide +kernel
  exact bits ⟨k, hk⟩

/-! Weights 1 and 3: the polynomial has an even number of terms, so every single bit has an odd syndrome. -/

/-- Whether a byte has an odd number of set bits. -/
def oddParity (b : Byte) : Bool := (List.range 8).foldr (fun i p => b.getLsbD i ^^ p) false

theorem oddParity_xor (a b : Byte) : oddParity (a ^^^ b) = (oddParity a ^^ oddParity b) := by
  unfold oddParity
  induction List.range 8 with
  | nil => rfl
  | cons i l ih =>
    rw [List.foldr_cons, List.foldr_cons, List.foldr_cons, ih, BitVec.getLsbD_xor]
    simp only [Bool.xor_assoc, Bool.xor_left_comm]

theorem oddParity_syndrome_twoPow {k : Nat} (hk : k < 32) : oddParity (syndrome (BitVec.twoPow 32 k)) = true := by
  have bits : ∀ k : Fin 32, oddParity (syndrome (BitVec.twoPow 32 k)) = true := by decide +kernel
  exact bits ⟨k, hk⟩

theorem ne_zero_of_oddParity {b : Byte} (h : oddParity b = true) : b ≠ 0#8 := by
  rintro rfl
  exact absurd h (by decide)

/-! Weight 2: `x` has an order of at least 32 modulo the polynomial. -/

theorem crcRounds_one_ne_one {d : Nat} (hpos : 0 < d) (hd : d < 32) : crcRounds d 1#8 ≠ 1#8 := by
  have powers : ∀ d : Fin 32, 0 < d.val → crcRounds d 1#8 ≠ 1#8 := by decide
  exact powers ⟨d, hd⟩ hpos

theorem syndrome_twoPow_ne_of_lt {i j : Nat} (hij : i < j) (hj : j < 32) :
    syndrome (BitVec.twoPow 32 i) ≠ syndrome (BitVec.twoPow 32 j) := by
  rw [syndrome_twoPow (hij.trans hj), syndrome_twoPow hj]
  obtain ⟨d, rfl⟩ := Nat.exists_eq_add_of_lt hij
  intro heq
  rw [Nat.add_assoc, crcRounds_add, ← BitVec.xor_eq_zero_iff, ← crcRounds_xorLinear] at heq
  have hone := BitVec.xor_eq_zero_iff.mp (eq_zero_of_crcRounds_eq_zero heq)
  exact crcRounds_one_ne_one (by omega) (by omega) hone.symm

theorem syndrome_twoPow_ne {i j : Nat} (hij : i ≠ j) (hi : i < 32) (hj : j < 32) :
    syndrome (BitVec.twoPow 32 i) ≠ syndrome (BitVec.twoPow 32 j) := by
  rcases Nat.lt_or_gt_of_ne hij with h | h
  · exact syndrome_twoPow_ne_of_lt h hj
  · exact (syndrome_twoPow_ne_of_lt h hi).symm

/-- Rule R9: no error of weight 1 to 3 has syndrome 0. -/
theorem syndrome_ne_zero_of_weight {e : BitVec 32} (h1 : 1 ≤ weight e) (h3 : weight e ≤ 3) : syndrome e ≠ 0#8 := by
  rw [← length_setBits] at h1 h3
  have hlt : ∀ k ∈ setBits e, k < 32 := fun _ => lt_of_mem_setBits
  have hnodup := setBits_nodup e
  rw [← ofBits_setBits e]
  generalize setBits e = l at *
  have hodd : ∀ k ∈ l, oddParity (syndrome (BitVec.twoPow 32 k)) = true :=
    fun k hk => oddParity_syndrome_twoPow (hlt k hk)
  match l with
  | [i] =>
    apply ne_zero_of_oddParity
    simp [ofBits, hodd]
  | [i, j] =>
    have hij : i ≠ j := by simpa using hnodup
    have hne := syndrome_twoPow_ne hij (hlt i (by simp)) (hlt j (by simp))
    simpa [ofBits, syndrome_xorLinear _ _, BitVec.xor_eq_zero_iff] using hne
  | [i, j, k] =>
    apply ne_zero_of_oddParity
    simp [ofBits, syndrome_xorLinear _ _, oddParity_xor, hodd]

/-! Bursts: at the bottom of the body a burst is its own syndrome, and each place further up is one more round. -/

/-- The first seven rounds reduce nothing. -/
theorem crcRounds_one_of_lt {i : Nat} (hi : i < 8) : crcRounds i 1#8 = BitVec.twoPow 8 i := by
  have powers : ∀ i : Fin 8, crcRounds i 1#8 = BitVec.twoPow 8 i := by decide
  exact powers ⟨i, hi⟩

theorem twoPow_zeroExtend_shiftLeft {i : Nat} (hi : i < 8) (k : Nat) :
    (BitVec.twoPow 8 i).zeroExtend 32 <<< k = BitVec.twoPow 32 (k + i) := by
  have bits : ∀ i : Fin 8, (BitVec.twoPow 8 i).zeroExtend 32 = BitVec.twoPow 32 i := by decide
  rw [bits ⟨i, hi⟩, BitVec.twoPow_eq, BitVec.twoPow_eq, ← BitVec.shiftLeft_add, Nat.add_comm]

theorem syndrome_shifted_byte {k : Nat} (hk : k ≤ 24) (p : Byte) :
    syndrome (p.zeroExtend 32 <<< k) = crcRounds k p := by
  have hleft : XorLinear fun p : Byte => syndrome (p.zeroExtend 32 <<< k) :=
    syndrome_xorLinear.comp fun a b => by
      rw [BitVec.zeroExtend_eq_setWidth, BitVec.setWidth_xor, BitVec.shiftLeft_xor_distrib]
  refine hleft.ext (crcRounds_xorLinear k) (fun i hi => ?_) p
  rw [twoPow_zeroExtend_shiftLeft hi, syndrome_twoPow (by omega), crcRounds_add, crcRounds_one_of_lt hi]

/-- A burst shifted past the top of the body is a shorter burst at the top: bit `j` of either side is bit `j - k`
of `p`. -/
theorem burst_past_top (p : Byte) {k : Nat} (hk : 24 ≤ k) :
    p.zeroExtend 32 <<< k = (p <<< (k - 24)).zeroExtend 32 <<< 24 := by
  apply BitVec.eq_of_getLsbD_eq
  intro j hj
  grind

theorem syndrome_ne_zero_of_burst_within {p : Byte} {k : Nat} (hk : k ≤ 24) (h : p.zeroExtend 32 <<< k ≠ 0#32) :
    syndrome (p.zeroExtend 32 <<< k) ≠ 0#8 := by
  rw [syndrome_shifted_byte hk]
  intro hzero
  rw [eq_zero_of_crcRounds_eq_zero hzero] at h
  simp at h

/-- Rule R9: no burst of length at most 8 has syndrome 0. -/
theorem syndrome_ne_zero_of_burst {p : Byte} {k : Nat} (h : p.zeroExtend 32 <<< k ≠ 0#32) :
    syndrome (p.zeroExtend 32 <<< k) ≠ 0#8 := by
  rcases Nat.le_total k 24 with hk | hk
  · exact syndrome_ne_zero_of_burst_within hk h
  · rw [burst_past_top p hk] at h ⊢
    exact syndrome_ne_zero_of_burst_within le_rfl h

theorem weight_twoPow (k : Fin 32) : weight (BitVec.twoPow 32 k) = 1 := by
  revert k; decide

/-- Settles O9: by linearity each part is that the pattern's own syndrome is not 0. -/
theorem defaultChecksumDetects : Obligations.DefaultChecksumDetects := by
  refine ⟨fun b0 b1 b2 k => ?_, fun b0 b1 b2 e h1 h3 => ?_, fun b0 b1 b2 p k hp => ?_⟩ <;>
    rw [bodyChecks_error_iff]
  · exact syndrome_ne_zero_of_weight (weight_twoPow k).ge ((weight_twoPow k).trans_le (by decide))
  · exact syndrome_ne_zero_of_weight h1 h3
  · exact syndrome_ne_zero_of_burst hp

end Sys2Proof.Machine

/-! What an instruction can answer, said once for all rows of the opcode table, so that a property of `exec` is a case
split over effects and not over rows. First the decoder: what one row can do to it. -/

namespace Sys2Proof.Machine

section Decoder

variable {cw tw : Nat}

/-- What one row can do to the decoder, with the event it gives: the effects of `FEED` (rules R71 to R80) and of the
decoder's stages standing alone (rules R81 to R84, log entry 6). -/
inductive Dec.Move (d : Dec cw) : Dec cw → Event tw → Prop
  | drop : d.Move d .none
  | start : d.Move d.start .none
  | escape : d.Move d.escape .none
  | append {d' : Dec cw} (v : Byte) (happ : d.appended v d')
      (hwf : Memory.wf d.buf = true → Memory.wf d'.buf = true) : d.Move d' .none
  | takeError (x : DecError) : d.Move (d.countError x).toIdle x.event
  | closeFrame (f : Frame tw) : d.Move d.toIdle (.frame f)
  | raise (x : DecError) : d.Move (d.countError x) x.event
  | unpack (f : Frame tw) : d.Move d (.frame f)

/-- The one fault of the block: at length 4 an entry of `BUF` holds no value (U1). -/
def Dec.Lacks (d : Dec cw) (f : Fault) : Prop :=
  d.decLen.val = 4 ∧ ∃ i, i < 4 ∧ Memory.lookup d.buf i = none ∧ f = .bufNoValue i

theorem Dec.append_ok {v : Byte} {d d' : Dec cw} (h : d.append v = .ok d') :
    d'.decState = d.decState ∧ d.appended v d' ∧ (Memory.wf d.buf = true → Memory.wf d'.buf = true) := by
  obtain ⟨d'', h', hspec⟩ := Dec.append_spec v d
  cases h.symm.trans h'
  exact hspec

theorem Dec.append_ne_error {v : Byte} {d : Dec cw} {f : Fault} : d.append v ≠ .error f := by
  obtain ⟨d', h, -⟩ := Dec.append_spec v d
  simp [h]

theorem Dec.destuff_ok {c : Cfg} {b : Byte} {d d' : Dec cw} (h : d.destuff c b = .ok d') :
    d'.decState = .accumulating ∧ d.appended (b ^^^ c.MASK) d' ∧
      (Memory.wf d.buf = true → Memory.wf d'.buf = true) := by
  obtain ⟨d'', h', hspec⟩ := Dec.destuff_spec c b d
  cases h.symm.trans h'
  exact hspec

theorem Dec.destuff_ne_error {c : Cfg} {b : Byte} {d : Dec cw} {f : Fault} : d.destuff c b ≠ .error f := by
  obtain ⟨d', h, -⟩ := Dec.destuff_spec c b d
  simp [h]

/-- A close that completes ends in `IDLE` at length 0. -/
theorem Dec.close_ok {c : Cfg} {now : BitVec tw} {d d' : Dec cw} {e : Event tw} (h : d.close c now = .ok (d', e)) :
    d.Move d' e ∧ d'.decLen.val = 0 := by
  rcases Dec.close_cases c now d with ⟨-, h'⟩ | ⟨-, w, -, -, h'⟩ | ⟨-, w, -, -, h'⟩ | ⟨-, i, -, -, h'⟩ <;>
    cases h.symm.trans h'
  · exact ⟨.takeError .framing, rfl⟩
  · exact ⟨.takeError .checksum, rfl⟩
  · exact ⟨.closeFrame _, rfl⟩

theorem Dec.close_error {c : Cfg} {now : BitVec tw} {d : Dec cw} {f : Fault} (h : d.close c now = .error f) :
    d.Lacks f := by
  rcases Dec.close_cases c now d with ⟨-, h'⟩ | ⟨-, w, -, -, h'⟩ | ⟨-, w, -, -, h'⟩ | ⟨hl, i, hi, hnone, h'⟩ <;>
    cases h.symm.trans h'
  exact ⟨hl, i, hi, hnone, rfl⟩

/-- A `FEED` that completes is one of the moves, and it leads to `IDLE` only at length 0 (rule R19(d)). -/
theorem Dec.feed_ok {c : Cfg} {b : Byte} {now : BitVec tw} {d d' : Dec cw} {e : Event tw}
    (h : d.feed c b now = .ok (d', e)) :
    d.Move d' e ∧ ((d.decState = .idle → d.decLen.val = 0) → d'.decState = .idle → d'.decLen.val = 0) := by
  rcases Dec.feed_cases c b now d with ⟨-, h'⟩ | ⟨-, hidle, h'⟩ | ⟨-, -, h'⟩ | ⟨-, -, h'⟩ | ⟨-, hacc, h'⟩ | ⟨-, -, h'⟩ <;>
    rw [h'] at h
  · cases h; exact ⟨.start, fun _ _ => rfl⟩
  · cases h; exact ⟨.drop, id⟩
  · obtain ⟨hmove, hlen⟩ := Dec.close_ok h
    exact ⟨hmove, fun _ _ => hlen⟩
  · cases h; exact ⟨.escape, fun _ hs => by cases hs⟩
  · obtain ⟨hd, rfl⟩ := noEvent_ok.mp h
    obtain ⟨hst, happ, hwf⟩ := Dec.append_ok hd
    exact ⟨.append b happ hwf, fun _ hs => by rw [hst, hacc] at hs; cases hs⟩
  · obtain ⟨hd, rfl⟩ := noEvent_ok.mp h
    obtain ⟨hst, happ, hwf⟩ := Dec.destuff_ok hd
    exact ⟨.append _ happ hwf, fun _ hs => by rw [hst] at hs; cases hs⟩

theorem Dec.feed_error {c : Cfg} {b : Byte} {now : BitVec tw} {d : Dec cw} {f : Fault}
    (h : d.feed c b now = .error f) : d.Lacks f := by
  rcases Dec.feed_cases c b now d with ⟨-, h'⟩ | ⟨-, -, h'⟩ | ⟨-, -, h'⟩ | ⟨-, -, h'⟩ | ⟨-, -, h'⟩ | ⟨-, -, h'⟩ <;>
    rw [h'] at h
  · cases h
  · cases h
  · exact Dec.close_error h
  · cases h
  · exact absurd (noEvent_error.mp h) Dec.append_ne_error
  · exact absurd (noEvent_error.mp h) Dec.destuff_ne_error

/-- The reads of a stage at length 4 fault only where `BUF` lacks a value. -/
theorem Dec.lacks_of_loadBody_error {d : Dec cw} {f : Fault} (hlen : ¬ lenFails d.decLen = true)
    (h : Memory.loadBody d.buf = .error f) : d.Lacks f := by
  rcases Memory.loadBody_cases d.buf with ⟨w, h', -⟩ | ⟨i, hi, hnone, h'⟩ <;> cases h.symm.trans h'
  exact ⟨by simpa [lenFails_iff] using hlen, i, hi, hnone, rfl⟩

/-! What the moves keep. -/

theorem Dec.BufInv.of_decLen_le {d d' : Dec cw} (h : d.BufInv) (hbuf : d'.buf = d.buf)
    (hlen : d'.decLen.val ≤ d.decLen.val) : d'.BufInv := by
  obtain ⟨hwf, hval⟩ := h
  exact ⟨hbuf ▸ hwf, fun i hi h4 => hbuf ▸ hval i (by omega) h4⟩

theorem Dec.BufInv.of_appended {v : Byte} {d d' : Dec cw} (h : d.BufInv) (happ : d.appended v d')
    (hwf : Memory.wf d.buf = true → Memory.wf d'.buf = true) : d'.BufInv := by
  obtain ⟨hwf₀, hval⟩ := h
  obtain ⟨hlt, hge, -, -⟩ := happ
  refine ⟨hwf hwf₀, fun i hi h4 => ?_⟩
  rcases Nat.lt_or_ge d.decLen.val 4 with hlen | hlen
  · obtain ⟨hlen', hget⟩ := hlt hlen
    rw [hget]
    split_ifs
    · rfl
    · exact hval i (by omega) h4
  · rw [(hge hlen).2]
    exact hval i (by omega) h4

/-- Rules R16 and R25 along every move. -/
theorem Dec.Move.bufInv {d d' : Dec cw} {e : Event tw} (hm : d.Move d' e) (h : d.BufInv) : d'.BufInv := by
  cases hm with
  | drop => exact h
  | start => exact h.of_decLen_le rfl (Nat.zero_le _)
  | escape => exact h.of_decLen_le rfl le_rfl
  | append v happ hwf => exact h.of_appended happ hwf
  | takeError x => cases x <;> exact h.of_decLen_le rfl (Nat.zero_le _)
  | closeFrame f => exact h.of_decLen_le rfl (Nat.zero_le _)
  | raise x => cases x <;> exact h.of_decLen_le rfl le_rfl
  | unpack f => exact h

/-- Rule R18 along every move: a counter moves exactly with its own error. -/
theorem Dec.Move.counters {d d' : Dec cw} {e : Event tw} (hm : d.Move d' e) :
    d'.feCnt = (if e = .framingError then satInc d.feCnt else d.feCnt) ∧
    d'.ceCnt = (if e = .checksumError then satInc d.ceCnt else d.ceCnt) := by
  cases hm with
  | append v happ hwf =>
    obtain ⟨-, -, hfe, hce⟩ := happ
    simp [hfe, hce]
  | takeError x => cases x <;> simp [DecError.event]
  | raise x => cases x <;> simp [DecError.event]
  | drop | start | escape | closeFrame f | unpack f => simp

theorem Dec.Inv.feed {c : Cfg} {b : Byte} {now : BitVec tw} {d d' : Dec cw} {e : Event tw} (h : d.Inv)
    (hf : d.feed c b now = .ok (d', e)) : d'.Inv := by
  obtain ⟨hbuf, hidle⟩ := h
  obtain ⟨hmove, hidle'⟩ := Dec.feed_ok hf
  exact ⟨hmove.bufInv hbuf, hidle' hidle⟩

theorem Dec.BufInv.not_lacks {d : Dec cw} (h : d.BufInv) (f : Fault) : ¬ d.Lacks f := by
  rintro ⟨hlen, i, hi, hnone, -⟩
  simpa [hnone] using h.2 i (by omega) hi

theorem Dec.reset_inv (cw : Nat) : (Dec.reset cw).Inv :=
  ⟨⟨rfl, fun _ hi _ => absurd hi (Nat.not_lt_zero _)⟩, fun _ => rfl⟩

end Decoder

end Sys2Proof.Machine

/-! The encoder's invariants, R19 (a), (b), (f), under its two operations and `RESET`. -/

namespace Sys2Proof.Machine

theorem Enc.inv_of_idle {c : Cfg} {e : Enc} (hbusy : e.encBusy = false) (hidx : e.encIdx.val = 0)
    (hesc : e.encEsc = false) : e.Inv c :=
  ⟨fun _ => ⟨hidx, hesc⟩, fun h => by simp [hesc] at h, fun h => by simp [hbusy] at h⟩

/-- In a busy encoder the sequencer is where R19(b) allows it: an escape is owed only before a marker. -/
theorem Enc.inv_iff_of_busy {c : Cfg} {e : Enc} (hbusy : e.encBusy = true) :
    e.Inv c ↔ (e.encEsc = true → 1 ≤ e.encIdx.val ∧ e.encIdx.val ≤ 4 ∧
        isMarker c (e.encWord.byteAt (e.encIdx.val - 1)) = true) ∧
      e.encWord.ck = c.CK e.encWord.b0 e.encWord.b1 e.encWord.b2 ∧ e.encWord.b2.extractLsb' 0 2 = 0#2 := by
  simp [Enc.Inv, hbusy]

/-- The pad bits of a packed payload are 0 (rule R46). -/
theorem bodyOf_pad (c : Cfg) (command : BitVec 4) (data : BitVec 18) :
    (bodyOf c command data).b2.extractLsb' 0 2 = 0#2 := by
  apply BitVec.eq_of_getLsbD_eq
  intro i hi
  simp [bodyOf, pack, packWord, hi, show i < 20 by omega]

theorem Enc.Inv.accept {wc wd : Nat} {c : Cfg} {e : Enc} (cmd : BitVec wc) (data : BitVec wd) (h : e.Inv c) :
    (e.accept c cmd data).1.Inv c := by
  rw [Enc.accept_eq]
  split_ifs
  · exact (Enc.inv_iff_of_busy rfl).mpr ⟨fun hesc => absurd hesc Bool.false_ne_true, rfl, bodyOf_pad c _ _⟩
  · exact h

theorem Enc.Inv.emit {c : Cfg} {e : Enc} (hbusy : e.encBusy = true) (h : e.Inv c) : (e.emit c).1.Inv c := by
  obtain ⟨hesc, hword⟩ := (Enc.inv_iff_of_busy hbusy).mp h
  unfold Enc.emit
  dsimp only
  split_ifs with h0 h5 howed hmark
  · have hfree : e.encEsc = false := by
      by_contra howed
      obtain ⟨hpos, -⟩ := hesc (by simpa using howed)
      omega
    exact (Enc.inv_iff_of_busy (by exact hbusy)).mpr ⟨fun howed => by simp [hfree] at howed, hword⟩
  · exact Enc.inv_of_idle rfl rfl rfl
  · exact (Enc.inv_iff_of_busy (by exact hbusy)).mpr ⟨fun hesc' => absurd hesc' Bool.false_ne_true, hword⟩
  · have hrange : 1 ≤ e.encIdx.val ∧ e.encIdx.val ≤ 4 := by omega
    exact (Enc.inv_iff_of_busy (by exact hbusy)).mpr ⟨fun _ => ⟨hrange.1, hrange.2, hmark⟩, hword⟩
  · exact (Enc.inv_iff_of_busy (by exact hbusy)).mpr ⟨fun hesc' => absurd hesc' howed, hword⟩

theorem Enc.reset_inv (c : Cfg) (n : Nat) : (Enc.reset n).Inv c := Enc.inv_of_idle rfl rfl rfl

end Sys2Proof.Machine

/-! The whole state: what each row of the opcode table can answer. -/

namespace Sys2Proof.Machine

/-- The operations of the encoder (rules R61, R62). -/
def isEncoderOp : Instr → Bool
  | .encAccept _ _ | .encEmit => true
  | _ => false

/-- The rows of the decoder: `FEED` with its cases, and the decoder's stages (rules R51, R52). -/
def isDecoderRow : Instr → Bool
  | .feed _ _ | .feedStart | .feedEndIdle | .feedEscIdle | .feedLitIdle _ | .feedEndAcc _ | .feedEscAcc | .feedLitAcc _
  | .feedEndEscd | .feedEscEscd | .feedLitEscd _ | .append _ | .closeLen | .closeCk | .unpack _ => true
  | _ => false

/-- The state after the decoder's step alone. -/
def State.withDec (s : State) (d : Dec Config.CNT_W) (e : Event Config.TS_W) : State :=
  { s with dec := d, out := Outputs.ofEvent e }

/-- Everything a row that answers a next state does to the state. -/
inductive Effect (s : State) : Instr → State → Prop
  | reset : Effect s .reset s.applyReset
  | wait {i : Instr} (hi : isEncoderOp i = true) : Effect s i s.quiet
  | accept (cmd : BitVec Config.W_CMD_IN) (data : BitVec Config.W_DATA_IN) (hbusy : s.enc.encBusy = false)
      (hesc : s.enc.encEsc = false) : Effect s (.encAccept cmd data)
      { s with enc := (s.enc.accept cfg cmd data).1, out := Outputs.ofRsp (s.enc.accept cfg cmd data).2 }
  | emit (hbusy : s.enc.encBusy = true) : Effect s .encEmit
      { s with enc := (s.enc.emit cfg).1, out := Outputs.ofTx (s.enc.emit cfg).2 }
  | result {i : Instr} (r : StageOut) (hi : isOperation i = false) : Effect s i (s.giveStage r)
  | feed {i : Instr} {d : Dec Config.CNT_W} {e : Event Config.TS_W} (hi : isDecoderRow i = true) (b : Byte)
      (now : BitVec Config.TS_W) (h : s.dec.feed cfg b now = .ok (d, e)) : Effect s i (s.withDec d e)
  | decStage {i : Instr} {d : Dec Config.CNT_W} {e : Event Config.TS_W} (hi : isDecoderRow i = true)
      (hstage : isOperation i = false) (h : s.dec.Move d e) : Effect s i (s.withDec d e)

/-- What an outcome of row `i` in state `s` can be: an effect, the fault of a `BUF` that lacks a value, a refusal. -/
def AnswerSpec (s : State) (i : Instr) : Result → Prop
  | .next t => Effect s i t
  | .fault f => s.dec.Lacks f
  | .refused _ => True

/-- A row that is one `FEED` of some byte. -/
theorem answerSpec_runDec_feed {s : State} {i : Instr} (hi : isDecoderRow i = true) (b : Byte)
    (now : BitVec Config.TS_W) : AnswerSpec s i (s.runDec (s.dec.feed cfg b now)) := by
  rcases h : s.dec.feed cfg b now with f | ⟨d, e⟩
  · exact Dec.feed_error h
  · exact .feed hi b now h

/-- A case of `FEED` that does, where it is selected, what `FEED` of some byte does. -/
theorem answerSpec_runCase {s : State} {i : Instr} {selected : Bool}
    {r : Except Fault (Dec Config.CNT_W × Event Config.TS_W)} (hi : isDecoderRow i = true) (b : Byte)
    (now : BitVec Config.TS_W) (h : selected = true → s.dec.feed cfg b now = r) :
    AnswerSpec s i (s.runCase selected r) := by
  cases selected with
  | false => trivial
  | true => exact h rfl ▸ answerSpec_runDec_feed hi b now

theorem decIn_iff {s : State} {st : DecState} : s.decIn st = true ↔ s.dec.decState = st := beq_iff_eq

theorem decIn_and_isLiteral_iff {s : State} {st : DecState} {b : Byte} :
    (s.decIn st && isLiteral b) = true ↔ s.dec.decState = st ∧ classify cfg b = .literal := by
  simp [decIn_iff, isLiteral]

theorem classify_cfg_END : classify cfg cfg.END = .endMarker := by decide

theorem classify_cfg_ESC : classify cfg cfg.ESC = .escMarker := by decide

/-- Every row, in every state. -/
theorem exec_answerSpec (i : Instr) (s : State) : AnswerSpec s i (exec i s) := by
  cases i with
  | frameNew cmd data =>
    change AnswerSpec s _ (execFrameNew cmd data s)
    unfold execFrameNew
    split <;> exact .result _ rfl
  | enc cmd data =>
    change AnswerSpec s _ (execEnc cmd data s)
    unfold execEnc
    split <;> exact .result _ rfl
  | pack | cksum | stuff | delimit => exact Effect.result _ rfl
  | encAccept cmd data =>
    change AnswerSpec s _ (execEncAccept cmd data s)
    rw [execEncAccept_eq]
    split_ifs with hbusy hesc
    · exact .wait rfl
    · trivial
    · exact .accept cmd data (by simpa using hbusy) (by simpa using hesc)
  | encEmit =>
    change AnswerSpec s _ (execEncEmit s)
    rw [execEncEmit_eq]
    split_ifs with hbusy
    · exact .emit hbusy
    · exact .wait rfl
  | feed b now =>
    change AnswerSpec s _ (execFeed b now s)
    rw [execFeed_eq]
    exact answerSpec_runDec_feed rfl b now
  | feedStart => exact answerSpec_runDec_feed (s := s) rfl cfg.START 0
  | feedEndIdle =>
    exact answerSpec_runCase rfl cfg.END 0 fun h => by rw [Dec.feed, classify_cfg_END, decIn_iff.mp h]
  | feedEscIdle =>
    exact answerSpec_runCase rfl cfg.ESC 0 fun h => by rw [Dec.feed, classify_cfg_ESC, decIn_iff.mp h]
  | feedLitIdle b =>
    exact answerSpec_runCase rfl b 0 fun h => by simp [Dec.feed, decIn_and_isLiteral_iff.mp h]
  | feedEndAcc now =>
    exact answerSpec_runCase rfl cfg.END now fun h => by rw [Dec.feed, classify_cfg_END, decIn_iff.mp h]
  | feedEscAcc =>
    exact answerSpec_runCase rfl cfg.ESC 0 fun h => by rw [Dec.feed, classify_cfg_ESC, decIn_iff.mp h]
  | feedLitAcc b =>
    exact answerSpec_runCase rfl b 0 fun h => by simp [Dec.feed, decIn_and_isLiteral_iff.mp h]
  | feedEndEscd =>
    exact answerSpec_runCase rfl cfg.END 0 fun h => by rw [Dec.feed, classify_cfg_END, decIn_iff.mp h]
  | feedEscEscd =>
    exact answerSpec_runCase rfl cfg.ESC 0 fun h => by rw [Dec.feed, classify_cfg_ESC, decIn_iff.mp h]
  | feedLitEscd b =>
    exact answerSpec_runCase rfl b 0 fun h => by simp [Dec.feed, decIn_and_isLiteral_iff.mp h]
  | append v =>
    change AnswerSpec s _ (s.runDec (noEvent (s.dec.append v)))
    obtain ⟨d, hd, -, happ, hwf⟩ := Dec.append_spec v s.dec
    rw [hd]
    exact .decStage rfl rfl (.append v happ hwf)
  | closeLen =>
    change AnswerSpec s _ (execCloseLen s)
    unfold execCloseLen
    split_ifs
    · exact .decStage rfl rfl (.raise .framing)
    · exact .result _ rfl
  | closeCk =>
    change AnswerSpec s _ (execCloseCk s)
    unfold execCloseCk
    split_ifs with hlen
    · trivial
    · rcases h : Memory.loadBody s.dec.buf with f | w
      · exact Dec.lacks_of_loadBody_error hlen h
      · dsimp only
        split_ifs
        · exact .decStage rfl rfl (.raise .checksum)
        · exact .result _ rfl
  | unpack now =>
    change AnswerSpec s _ (execUnpack now s)
    unfold execUnpack
    split_ifs with hlen
    · trivial
    · rcases h : Memory.loadBody s.dec.buf with f | w
      · exact Dec.lacks_of_loadBody_error hlen h
      · dsimp only
        split_ifs
        · trivial
        · exact .decStage rfl rfl (.unpack _)
  | reset => exact Effect.reset

theorem exec_effect {i : Instr} {s t : State} (h : exec i s = .next t) : Effect s i t := by
  have hspec := exec_answerSpec i s
  rwa [h] at hspec

theorem exec_fault {i : Instr} {s : State} {f : Fault} (h : exec i s = .fault f) : s.dec.Lacks f := by
  have hspec := exec_answerSpec i s
  rwa [h] at hspec

namespace Effect

variable {s t : State} {i : Instr}

/-- No row touches the environment (rule R22); `RESET` leaves it too (log entry 10). -/
theorem env (h : Effect s i t) : t.env = s.env := by
  cases h <;> rfl

theorem draws_hasReset (h : Effect s i t) (hi : i ≠ .reset) : t.draws = s.draws ∧ t.hasReset = s.hasReset := by
  cases h with
  | reset => exact absurd rfl hi
  | wait | accept | emit | result | feed | decStage => exact ⟨rfl, rfl⟩

theorem enc_of_not_encoderOp (h : Effect s i t) (hi : i ≠ .reset) (henc : isEncoderOp i = false) : t.enc = s.enc := by
  cases h with
  | reset => exact absurd rfl hi
  | accept | emit => cases henc
  | wait | result | feed | decStage => rfl

theorem dec_of_not_decoderRow (h : Effect s i t) (hi : i ≠ .reset) (hdec : isDecoderRow i = false) :
    t.dec = s.dec := by
  cases h with
  | reset => exact absurd rfl hi
  | feed hrow | decStage hrow => simp [hdec] at hrow
  | wait | accept | emit | result => rfl

/-- Rule R18's view of a row: the decoder's move and the event on the port belong together. -/
theorem dec_move (h : Effect s i t) (hi : i ≠ .reset) : s.dec.Move t.dec t.out.ev := by
  cases h with
  | reset => exact absurd rfl hi
  | feed hrow b now hf => exact (Dec.feed_ok hf).1
  | decStage hrow hstage hmove => exact hmove
  | wait | accept | emit | result => exact .drop

theorem enc_inv (h : Effect s i t) (hinv : s.enc.Inv cfg) : t.enc.Inv cfg := by
  cases h with
  | reset => exact Enc.reset_inv cfg _
  | accept cmd data => exact hinv.accept cmd data
  | emit hbusy => exact hinv.emit hbusy
  | wait | result | feed | decStage => exact hinv

theorem dec_bufInv (h : Effect s i t) (hinv : s.dec.BufInv) : t.dec.BufInv := by
  cases h with
  | reset => exact (Dec.reset_inv _).1
  | feed hrow b now hf => exact (Dec.feed_ok hf).1.bufInv hinv
  | decStage hrow hstage hmove => exact hmove.bufInv hinv
  | wait | accept | emit | result => exact hinv

/-- Rule R19(d) is kept by the operations; a stage standing alone may break it (an `APPEND` in `IDLE`). -/
theorem dec_inv (h : Effect s i t) (hop : isOperation i = true) (hinv : s.dec.Inv) : t.dec.Inv := by
  cases h with
  | reset => exact Dec.reset_inv _
  | feed hrow b now hf => exact hinv.feed hf
  | decStage hrow hstage => simp [hstage] at hop
  | wait | accept | emit | result => exact hinv

end Effect

end Sys2Proof.Machine

/-! O48, O49, O47: what every step keeps (rules R16, R19, R25). -/

namespace Sys2Proof.Machine

/-- A step is the quiet one or one row's effect, in a state that differs from `s` in the environment alone: what is
still offered was offered before, and the row is `RESET` or the reading of an offered word. -/
theorem step_effect {s t : State} (h : step s = .next t) :
    t = s.quiet ∨ ∃ i env, Effect { s with env := env } i t ∧ env.pend ⊆ s.env.pend ∧
      (i = .reset ∨ ∃ w ∈ s.env.pend, decode s.dec.decState w = .ok i) := by
  rcases step_cases h with ⟨-, hex⟩ | ⟨-, -, rfl⟩ | ⟨-, w, rest, i, hready, hdec, -, hex⟩
  · exact .inr ⟨_, _, exec_effect hex, List.Subset.refl _, .inl rfl⟩
  · exact .inl rfl
  · obtain ⟨-, waiting, later, hpend, rfl, -⟩ := firstReady_some hready
    rw [hpend]
    exact .inr ⟨i, _, exec_effect hex, by simp, .inr ⟨w, by simp, hdec⟩⟩

theorem isOperation_feedCase (st : DecState) (b : Byte) (now : BitVec Config.TS_W) :
    isOperation (feedCase st b now) = true := by
  unfold feedCase
  cases classify cfg b <;> cases st <;> rfl

theorem decodeReq_ok {lane : Lane} {k : BitVec Config.W_CMD_IN → BitVec Config.W_DATA_IN → Instr} {bs : List Byte}
    {i : Instr} (h : decodeReq lane k bs = .ok i) : ∃ cmd data, i = k cmd data := by
  unfold decodeReq at h
  split at h <;> cases h
  exact ⟨_, _, rfl⟩

/-- A word at a port is one of the operations of rule R10, never a stage. -/
theorem isOperation_of_decode {st : DecState} {w : OpWord} {i : Instr} (hport : atPort w = true)
    (h : decode st w = .ok i) : isOperation i = true := by
  obtain ⟨lane, bytes, now⟩ := w
  cases lane with
  | rst | txReady | feed =>
    rcases bytes with _ | ⟨b, _ | ⟨b', bs⟩⟩ <;> cases h
    rfl
  | rx =>
    rcases bytes with _ | ⟨b, _ | ⟨b', bs⟩⟩ <;> cases h
    exact isOperation_feedCase st b now
  | encReq =>
    obtain ⟨cmd, data, rfl⟩ := decodeReq_ok (lane := .encReq) (k := .encAccept) h
    rfl
  | stage k => cases hport

theorem step_keeps_inv {s t : State} (hinv : s.Inv) (hports : s.offersAtPorts) (h : step s = .next t) :
    t.Inv ∧ t.offersAtPorts := by
  obtain ⟨henc, hdec⟩ := hinv
  rcases step_effect h with rfl | ⟨i, env, heff, hpend, hi⟩
  · exact ⟨⟨henc, hdec⟩, hports⟩
  · have hop : isOperation i = true := by
      rcases hi with rfl | ⟨w, hw, hread⟩
      · rfl
      · exact isOperation_of_decode (hports w hw) hread
    refine ⟨⟨heff.enc_inv henc, heff.dec_inv hop hdec⟩, fun w hw => hports w (hpend ?_)⟩
    rwa [heff.env] at hw

/-- Rule R19 along every operation of the block, under any configuration with `CFG_WF`. -/
theorem Block.step_keeps_inv {c : Cfg} {hc : c.WF} {n : Nat} {op : Op c} {b b' : Block c} {o : BlockOut c}
    (hinv : b.Inv c) (h : Block.step c hc n op b = .next (b', o)) : b'.Inv c := by
  obtain ⟨henc, hdec⟩ := hinv
  rcases Block.step_next h with ⟨-, rfl, -⟩ | ⟨-, rfl, -⟩ | ⟨cmd, data, -, -, -, rfl, -⟩ | ⟨-, hbusy, rfl, -⟩ |
    ⟨v, now, d, e, -, hf, rfl, -⟩
  · exact ⟨Enc.reset_inv c n, Dec.reset_inv _⟩
  · exact ⟨henc, hdec⟩
  · exact ⟨henc.accept cmd data, hdec⟩
  · exact ⟨henc.emit hbusy, hdec⟩
  · exact ⟨henc, hdec.feed hf⟩

/-- Settles O48: each effect of an operation keeps R19, and a port's word is an operation. -/
theorem everyStepKeepsInvariants : Obligations.EveryStepKeepsInvariants :=
  ⟨fun _ _ hinv hports h => step_keeps_inv hinv hports h, fun _ _ _ _ _ _ _ hinv h => Block.step_keeps_inv hinv h⟩

/-- Settles O49: each effect, a stage's too, keeps the encoder's invariants and the storage invariant. -/
theorem everyStepKeepsStorage : Obligations.EveryStepKeepsStorage := by
  intro s t henc hbuf h
  rcases step_effect h with rfl | ⟨i, env, heff, -, -⟩
  · exact ⟨henc, hbuf⟩
  · exact ⟨heff.enc_inv henc, heff.dec_bufInv hbuf⟩

/-- Settles O47: after `RESET` both blocks are idle, the decoder at length 0. -/
theorem invariantsHoldAtReset : Obligations.InvariantsHoldAtReset :=
  ⟨⟨Enc.reset_inv cfg 0, Dec.reset_inv _⟩, fun _ hw => absurd hw List.not_mem_nil,
    fun c _ n => ⟨Enc.reset_inv c n, Dec.reset_inv _⟩⟩

end Sys2Proof.Machine

/-! O35, O45, O50, O46, O52: what one instruction can do (rules R16, R18, R22, R24). -/

namespace Sys2Proof.Machine

/-- Settles O35: the decoder's move carries the event, and each move counts its own error only. -/
theorem countersCountTheirErrors : Obligations.CountersCountTheirErrors := by
  intro i s t hi h
  obtain ⟨hfe, hce⟩ := ((exec_effect h).dec_move hi).counters
  rw [hfe, hce, apply_ite BitVec.toNat, apply_ite BitVec.toNat, satInc_toNat, satInc_toNat]
  exact ⟨rfl, rfl⟩

/-- Settles O45: every effect but `RESET`'s is on one block, chosen by the row. -/
theorem blocksAreIndependent : Obligations.BlocksAreIndependent := by
  intro i s t hi h
  have heff := exec_effect h
  obtain ⟨hdraws, hhas⟩ := heff.draws_hasReset hi
  refine ⟨heff.env, hdraws, hhas, fun haccept hemit => heff.enc_of_not_encoderOp hi ?_,
    fun hrow => heff.dec_of_not_decoderRow hi ?_⟩
  · cases i with
    | encAccept cmd data => exact absurd rfl (haccept cmd data)
    | encEmit => exact absurd rfl hemit
    | _ => rfl
  · rcases hrow with ⟨_, _, rfl⟩ | rfl | ⟨_, _, rfl⟩ | ⟨_, _, rfl⟩ | ⟨_, _, _, rfl⟩ | ⟨_, rfl⟩ | ⟨_, rfl⟩ | ⟨_, _, rfl⟩ <;>
      rfl

/-- Settles O50: the one fault is a value that `BUF` lacks, which the storage invariant excludes. -/
theorem noFaultUnderInvariants : Obligations.NoFaultUnderInvariants := by
  intro i s hbuf
  cases h : exec i s with
  | next t => trivial
  | fault f => exact hbuf.not_lacks f (exec_fault h)
  | refused q => trivial

/-- An operation of the encoder reads the encoder alone and writes the encoder and the outputs alone. -/
theorem exec_encoderOp_of_enc_eq {i : Instr} {s s₁ s' : State} (hi : isEncoderOp i = true) (h : exec i s = .next s₁)
    (henc : s'.enc = s.enc) :
    s₁.dec = s.dec ∧ exec i s' = .next { s' with enc := s₁.enc, out := s₁.out } := by
  obtain ⟨enc', dec', out', env', draws', hasReset'⟩ := s'
  subst henc
  cases i with
  | encAccept cmd data =>
    change execEncAccept cmd data s = _ at h
    change _ ∧ execEncAccept cmd data _ = _
    rw [execEncAccept_eq] at h ⊢
    split_ifs at h ⊢ <;> cases h <;> exact ⟨rfl, rfl⟩
  | encEmit =>
    change execEncEmit s = _ at h
    change _ ∧ execEncEmit _ = _
    rw [execEncEmit_eq] at h ⊢
    split_ifs at h ⊢ <;> cases h <;> exact ⟨rfl, rfl⟩
  | _ => cases hi

/-- A `FEED` reads the decoder alone and writes the decoder and the outputs alone. -/
theorem exec_feed_of_dec_eq {b : Byte} {now : BitVec Config.TS_W} {s s₂ s' : State}
    (h : exec (.feed b now) s = .next s₂) (hdec : s'.dec = s.dec) :
    s₂.enc = s.enc ∧ exec (.feed b now) s' = .next { s' with dec := s₂.dec, out := s₂.out } := by
  change execFeed b now s = _ at h
  change _ ∧ execFeed b now s' = _
  rw [execFeed_eq, State.runDec_next] at h
  obtain ⟨d, e, hf, rfl⟩ := h
  rw [execFeed_eq, hdec, hf]
  exact ⟨rfl, rfl⟩

/-- Settles O46: each of the two reads and writes its own block alone. -/
theorem blocksCommute : Obligations.BlocksCommute := by
  intro i b now s s₁ s₂ hi h₁ h₂
  have hi : isEncoderOp i = true := by
    rcases hi with rfl | ⟨cmd, data, rfl⟩ <;> rfl
  obtain ⟨hdec, -⟩ := exec_encoderOp_of_enc_eq hi h₁ rfl
  obtain ⟨henc, -⟩ := exec_feed_of_dec_eq h₂ rfl
  exact ⟨_, _, (exec_feed_of_dec_eq h₂ hdec).2, (exec_encoderOp_of_enc_eq hi h₁ henc).2, rfl, rfl, rfl, rfl⟩

/-- Settles O52: each row's meaning overwrites `out` as a whole and reads only the other fields, so the two sides are one
term once the row is known. -/
theorem outputsAreNotRead : Obligations.OutputsAreNotRead := by
  intro i s o
  cases i <;> rfl

end Sys2Proof.Machine

/-! O1, O53, O54: the reset table and the ports (rules R14, R20, R21, R23, R49, R50). -/

namespace Sys2Proof.Machine

/-- Settles O1. -/
theorem resetLeavesTheTable : Obligations.ResetLeavesTheTable :=
  ⟨rfl, rfl, rfl, rfl, rfl, fun _ => rfl, rfl, rfl, rfl, rfl⟩

theorem txPort_eq (s : State) : txPort s = if s.enc.encBusy then some (s.enc.emit cfg).2 else none := rfl

/-- Settles O53: the port is what `ENC.EMIT` would emit, and `FEED` leaves the encoder alone. -/
theorem portsShowTheBlock : Obligations.PortsShowTheBlock := by
  refine ⟨fun _ => ⟨rfl, rfl, rfl⟩, fun s t h => ?_, fun b now s t h => ?_⟩
  · change execEncEmit s = _ at h
    rw [execEncEmit_eq] at h
    split_ifs at h with hbusy <;> cases h <;> simp [txPort_eq, hbusy]
  · rw [txPort_eq, txPort_eq, (exec_feed_of_dec_eq h rfl).1]

/-- Settles O54: `evKindCode` gives each kind of event its own code. -/
theorem portCodes : Obligations.PortCodes := by
  refine ⟨rfl, rfl, rfl, rfl, rfl, fun s => ?_⟩
  unfold evKind
  cases s.out.ev <;> simp [evKindCode]

end Sys2Proof.Machine

/-! O36: the bounded decoder refines the decoder with a growable buffer (rule R17). -/

namespace Sys2Proof.Machine

section Refinement

variable {cw tw : Nat} {d d' : Dec cw} {u : UDec}

theorem UDec.rel_empty (d : Dec cw) (st : DecState) (hst : d.decState = st) (hlen : d.decLen = 0) :
    UDec.rel d ⟨st, []⟩ :=
  ⟨hst, by simp [hlen], fun i hi => absurd hi (by simp)⟩

/-- An append on both sides: at index 4 and above only the growable buffer stores it. -/
theorem UDec.rel.append {v : Byte} {st : DecState} (h : UDec.rel d u) (happ : d.appended v d')
    (hst : d'.decState = st) : UDec.rel d' ⟨st, u.ubuf ++ [v]⟩ := by
  obtain ⟨-, hlen, hbuf⟩ := h
  obtain ⟨hlt, hge, -, -⟩ := happ
  rcases Nat.lt_or_ge u.ubuf.length 4 with hu | hu
  · have hd : d.decLen.val = u.ubuf.length := by omega
    obtain ⟨hlen', hget⟩ := hlt (by omega)
    refine ⟨hst, by simp; omega, fun i hi => ?_⟩
    rw [hget, hd]
    rcases Nat.lt_or_ge i u.ubuf.length with hi' | hi'
    · rw [if_neg (by omega), hbuf i (by omega), List.getElem?_append_left hi']
    · have hi : i = u.ubuf.length := by simp at hi; omega
      simp [hi]
  · obtain ⟨hlen', hbuf'⟩ := hge (by omega)
    refine ⟨hst, by simp; omega, fun i hi => ?_⟩
    have hi4 : i < 4 := by omega
    rw [hbuf', hbuf i (by omega), List.getElem?_append_left (by omega)]

theorem UDec.close_of_length_ne (c : Cfg) (now : BitVec tw) {bs : List Byte} (h : bs.length ≠ 4) :
    UDec.close c now bs = .framingError := by
  unfold UDec.close
  split
  · simp at h
  · rfl

/-- A close gives the same event on both sides: the lengths agree on being 4, and then so do the four bytes. -/
theorem UDec.rel.close (h : UDec.rel d u) (c : Cfg) (now : BitVec tw) :
    ∃ d', d.close c now = .ok (d', UDec.close c now u.ubuf) ∧ UDec.rel d' ⟨.idle, []⟩ := by
  obtain ⟨-, hlen, hbuf⟩ := h
  by_cases hu : u.ubuf.length = 4
  · obtain ⟨b0, b1, b2, ck, hbytes⟩ := List.length_eq_four.mp hu
    rw [hbytes] at hlen hbuf ⊢
    have hholds : d.holds b0 b1 b2 ck :=
      ⟨hbuf 0 (by simp), hbuf 1 (by simp), hbuf 2 (by simp), hbuf 3 (by simp)⟩
    rw [Dec.close_of_holds c now d b0 b1 b2 ck (by simpa using hlen) hholds]
    by_cases hck : c.CK b0 b1 b2 = ck
    · exact ⟨d.toIdle, by simp [UDec.close, ckFails, cksum, hck], UDec.rel_empty _ _ rfl rfl⟩
    · exact ⟨(d.countError .checksum).toIdle, by simp [UDec.close, ckFails, cksum, hck, Dec.takeError, DecError.event],
        UDec.rel_empty _ _ rfl rfl⟩
  · have hfails : lenFails d.decLen = true := (lenFails_iff _).mpr (by omega)
    exact ⟨(d.countError .framing).toIdle, by rw [Dec.close, if_pos hfails, UDec.close_of_length_ne c now hu]; rfl,
      UDec.rel_empty _ _ rfl rfl⟩

/-- A destuffed byte on both sides. -/
theorem UDec.rel.destuff (h : UDec.rel d u) (c : Cfg) (b : Byte) :
    ∃ d', d.destuff c b = .ok d' ∧ UDec.rel d' ⟨.accumulating, u.ubuf ++ [xform c b]⟩ := by
  obtain ⟨d', hd, hst, happ, -⟩ := Dec.destuff_spec c b d
  exact ⟨d', hd, h.append happ hst⟩

/-- One `FEED` on both sides (rule R17). -/
theorem UDec.rel.feed (h : UDec.rel d u) (c : Cfg) (b : Byte) (now : BitVec tw) :
    ∃ d', d.feed c b now = .ok (d', (u.feed c b now).2) ∧ UDec.rel d' (u.feed c b now).1 := by
  have hst : d.decState = u.decState := h.1
  unfold Dec.feed UDec.feed
  rw [hst]
  cases hu : u.decState with
  | idle =>
    cases classify c b with
    | startMarker => exact ⟨d.start, rfl, UDec.rel_empty _ _ rfl rfl⟩
    | endMarker | escMarker | literal => exact ⟨d, rfl, h⟩
  | accumulating =>
    cases classify c b with
    | startMarker => exact ⟨d.start, rfl, UDec.rel_empty _ _ rfl rfl⟩
    | endMarker => exact h.close c now
    | escMarker => exact ⟨d.escape, rfl, rfl, h.2⟩
    | literal =>
      obtain ⟨d', hd, hst', happ, -⟩ := Dec.append_spec b d
      exact ⟨d', by simp [hd, noEvent], h.append happ (hst'.trans (hst.trans hu))⟩
  | escaped =>
    obtain ⟨d', hd, h'⟩ := h.destuff c b
    cases classify c b with
    | startMarker => exact ⟨d.start, rfl, UDec.rel_empty _ _ rfl rfl⟩
    | endMarker | escMarker | literal => exact ⟨d', by simp [hd, noEvent], h'⟩

theorem UDec.rel.stream (h : UDec.rel d u) (c : Cfg) (xs : List (Byte × BitVec tw)) :
    ∃ d', decodeStream c d xs = .ok (d', (UDec.stream c u xs).2) ∧ UDec.rel d' (UDec.stream c u xs).1 := by
  induction xs generalizing d u with
  | nil => exact ⟨d, rfl, h⟩
  | cons x xs ih =>
    obtain ⟨b, now⟩ := x
    obtain ⟨d₁, hfeed, h₁⟩ := h.feed c b now
    obtain ⟨d₂, hstream, h₂⟩ := ih h₁
    exact ⟨d₂, by simp [decodeStream, hfeed, hstream, UDec.stream], h₂⟩

end Refinement

/-- Settles O36, by induction on the stream, in the relation of R17. -/
theorem boundedEqualsGrowable : Obligations.BoundedEqualsGrowable :=
  fun c cw _ xs => (UDec.rel_empty (Dec.reset cw) .idle rfl rfl).stream c xs

end Sys2Proof.Machine

/-! O51: `BUF` is never accessed out of range (rule R32). -/

namespace Sys2Proof.Machine

/-- Settles O51: the one fault of any row is an entry of `BUF`, in range, that holds no value. -/
theorem bufIndexStaysInRange : Obligations.BufIndexStaysInRange := by
  intro i s n h
  obtain ⟨-, k, -, -, hf⟩ := exec_fault h
  cases hf

end Sys2Proof.Machine

/-! A canonical frame at the decoder (rules R58, R59, R71, R75 to R80, R84): `START` forgets, the stuffed body is
destuffed into the buffer, and `END` gives back the Frame that was packed. -/

namespace Sys2Proof.Machine

/-! The markers' classes. -/

theorem classify_START (c : Cfg) : classify c c.START = .startMarker := by simp [classify]

theorem classify_END {c : Cfg} (hwf : c.WF) : classify c c.END = .endMarker := by
  obtain ⟨⟨hse, -, -⟩, -⟩ := hwf
  simp [classify, hse.symm]

theorem classify_ESC {c : Cfg} (hwf : c.WF) : classify c c.ESC = .escMarker := by
  obtain ⟨⟨-, hsx, hex⟩, -⟩ := hwf
  simp [classify, hsx.symm, hex.symm]

theorem classify_ne_startMarker {c : Cfg} {b : Byte} (hb : b ≠ c.START) : classify c b ≠ .startMarker := by
  rw [classify, if_neg hb]
  split_ifs <;> simp

/-- What follows an `ESC` in a stuffed body is a literal (rule R8(b)). -/
theorem classify_xform {c : Cfg} (hwf : c.WF) {v : Byte} (hv : isMarker c v = true) :
    classify c (xform c v) = .literal := by
  obtain ⟨-, hmask, -⟩ := hwf
  exact (classify_literal_iff c _).mpr (hmask v ((isMarker_iff c v).mp hv))

theorem classify_literal_of_not_isMarker {c : Cfg} {v : Byte} (hv : ¬ isMarker c v = true) :
    classify c v = .literal :=
  (classify_literal_iff c v).mpr fun hmem => hv ((isMarker_iff c v).mpr hmem)

/-! Unpacking undoes packing. -/

/-- A packed payload's three bytes, joined, are the payload (rules R27, R47). -/
theorem joinWord_extractLsb' (w : BitVec 24) :
    joinWord (w.extractLsb' 16 8) (w.extractLsb' 8 8) (w.extractLsb' 0 8) = w := by
  apply BitVec.eq_of_getLsbD_eq
  intro i hi
  rcases Nat.lt_or_ge i 8 with h8 | h8
  · simp [joinWord, hi, h8, show i < 16 by omega]
  rcases Nat.lt_or_ge i 16 with h16 | h16
  · simp [joinWord, hi, h16, show ¬ i < 8 by omega, show i - 8 < 8 by omega, show 8 + (i - 8) = i by omega]
  · simp [joinWord, hi, show ¬ i < 8 by omega, show ¬ i < 16 by omega, show ¬ i - 8 < 8 by omega,
      show i - 16 < 8 by omega, show 16 + (i - 16) = i by omega]

/-- Bits 23:20 and 19:2 of the packed payload are the two fields (rule R46). -/
theorem extractLsb'_packWord (command : BitVec 4) (data : BitVec 18) :
    (packWord command data).extractLsb' 20 4 = command ∧ (packWord command data).extractLsb' 2 18 = data := by
  constructor <;> apply BitVec.eq_of_getLsbD_eq <;> intro i hi
  · simp [packWord, hi, show 20 + i < 24 by omega, show ¬ 20 + i < 2 by omega, show 18 ≤ 20 + i - 2 by omega]
  · simp [packWord, hi, show 2 + i < 24 by omega, show 2 + i < 20 by omega, show 1 < 2 + i by omega]

theorem unpackFrame_bodyOf {tw : Nat} (c : Cfg) (command : BitVec 4) (data : BitVec 18) (now : BitVec tw) :
    unpackFrame (bodyOf c command data) now = ⟨command, data, some now⟩ := by
  obtain ⟨hcommand, hdata⟩ := extractLsb'_packWord command data
  simp [unpackFrame, bodyOf, pack, joinWord_extractLsb', hcommand, hdata]

/-- Closing on the body of a Frame gives the Frame: its own checksum matches. -/
theorem UDec.close_bodyOf {tw : Nat} (c : Cfg) (command : BitVec 4) (data : BitVec 18) (now : BitVec tw) :
    UDec.close c now (bodyOf c command data).toList = .frame ⟨command, data, some now⟩ := by
  rw [← unpackFrame_bodyOf c command data now]
  simp [UDec.close, Body.toList, ckFails, bodyOf]

section Streams

variable {c : Cfg} {cw tw : Nat}

theorem decodeStream_append {d d₁ d₂ : Dec cw} {xs ys : List (Byte × BitVec tw)} {es fs : List (Event tw)}
    (hxs : decodeStream c d xs = .ok (d₁, es)) (hys : decodeStream c d₁ ys = .ok (d₂, fs)) :
    decodeStream c d (xs ++ ys) = .ok (d₂, es ++ fs) := by
  induction xs generalizing d es with
  | nil =>
    cases hxs
    exact hys
  | cons x xs ih =>
    obtain ⟨b, now⟩ := x
    rcases hfeed : d.feed c b now with f | ⟨d', e⟩
    · simp [decodeStream, hfeed] at hxs
    rcases hrest : decodeStream c d' xs with f | ⟨d'', es'⟩
    · simp [decodeStream, hfeed, hrest] at hxs
    simp only [decodeStream, hfeed, hrest, Except.ok.injEq, Prod.mk.injEq] at hxs
    obtain ⟨rfl, rfl⟩ := hxs
    simp [decodeStream, hfeed, ih hrest]

/-- `START` opens a frame in any state (rule R71). -/
theorem Dec.feed_START (d : Dec cw) (now : BitVec tw) : d.feed c c.START now = .ok (d.start, .none) := by
  simp [Dec.feed, classify_START]

/-- In `IDLE` everything but `START` is dropped (rules R72 to R74). -/
theorem Dec.feed_of_idle {d : Dec cw} (hidle : d.decState = .idle) {b : Byte} (hb : b ≠ c.START) (now : BitVec tw) :
    d.feed c b now = .ok (d, .none) := by
  have hclass := classify_ne_startMarker hb
  rw [Dec.feed, hidle]
  cases hc : classify c b with
  | startMarker => exact absurd hc hclass
  | endMarker | escMarker | literal => rfl

/-- In `IDLE` a stream without `START` leaves the decoder as it was, without an event. -/
theorem decodeStream_idle {d : Dec cw} (hidle : d.decState = .idle) {xs : List (Byte × BitVec tw)}
    (hxs : ∀ x ∈ xs, x.1 ≠ c.START) : decodeStream c d xs = .ok (d, []) := by
  induction xs with
  | nil => rfl
  | cons x xs ih =>
    obtain ⟨b, now⟩ := x
    obtain ⟨hb, hxs⟩ := List.forall_mem_cons.mp hxs
    simp [decodeStream, Dec.feed_of_idle hidle hb, ih hxs, Event.toList]

/-- A stuffed sequence is destuffed into the buffer, without an event (rules R58, R76 to R80). -/
theorem UDec.stream_stuff (hwf : c.WF) (bs : List Byte) {ubuf : List Byte} {xs : List (Byte × BitVec tw)}
    (hxs : xs.map Prod.fst = stuff c bs) :
    UDec.stream c ⟨.accumulating, ubuf⟩ xs = (⟨.accumulating, ubuf ++ bs⟩, []) := by
  induction bs generalizing ubuf xs with
  | nil =>
    rw [List.map_eq_nil_iff.mp hxs]
    simp [UDec.stream]
  | cons v bs ih =>
    rw [stuff] at hxs
    split_ifs at hxs with hv
    · obtain ⟨⟨_, n₁⟩, ys, rfl, rfl, hys⟩ := List.map_eq_cons_iff.mp hxs
      obtain ⟨⟨_, n₂⟩, zs, rfl, hfst, hzs⟩ := List.map_eq_cons_iff.mp hys
      subst hfst
      simp [UDec.stream, UDec.feed, classify_ESC hwf, classify_xform hwf hv, xform_xform, ih hzs, Event.toList]
    · obtain ⟨⟨_, n⟩, ys, rfl, rfl, hys⟩ := List.map_eq_cons_iff.mp hxs
      simp [UDec.stream, UDec.feed, classify_literal_of_not_isMarker hv, ih hys, Event.toList]

/-- From any state, `START` and a stuffed sequence fill the buffer with exactly that sequence, without an event. -/
theorem decodeStream_start_stuff (hwf : c.WF) (d : Dec cw) (bs : List Byte) {xs : List (Byte × BitVec tw)}
    (hxs : xs.map Prod.fst = c.START :: stuff c bs) :
    ∃ d₁, decodeStream c d xs = .ok (d₁, []) ∧ UDec.rel d₁ ⟨.accumulating, bs⟩ := by
  obtain ⟨⟨_, now⟩, ys, rfl, rfl, hys⟩ := List.map_eq_cons_iff.mp hxs
  obtain ⟨d₁, hstream, hrel⟩ := (UDec.rel_empty d.start .accumulating rfl rfl).stream c ys
  rw [UDec.stream_stuff hwf bs hys] at hstream hrel
  exact ⟨d₁, by simp [decodeStream, Dec.feed_START, hstream, Event.toList], hrel⟩

/-- `END` closes on the buffered body of a Frame with that Frame (rules R75, R84). -/
theorem decodeStream_end_of_rel (hwf : c.WF) {d : Dec cw} {command : BitVec 4} {data : BitVec 18}
    (hrel : UDec.rel d ⟨.accumulating, (bodyOf c command data).toList⟩) (last : BitVec tw) :
    ∃ d', decodeStream c d [(c.END, last)] = .ok (d', [.frame ⟨command, data, some last⟩]) ∧
      UDec.rel d' ⟨.idle, []⟩ := by
  obtain ⟨d', hclose, hrel'⟩ := hrel.close c last
  rw [UDec.close_bodyOf] at hclose
  exact ⟨d', by simp [decodeStream, Dec.feed, classify_END hwf, hrel.1, hclose, Event.toList], hrel'⟩

/-- One whole frame, from any state (rule R86): its Frame, stamped with the time of the `END`. -/
theorem decodeStream_frameBytes (hwf : c.WF) (d : Dec cw) {command : BitVec 4} {data : BitVec 18}
    {xs : List (Byte × BitVec tw)} (hxs : xs.map Prod.fst = frameBytes c command data) :
    ∃ d' last, decodeStream c d xs = .ok (d', [.frame ⟨command, data, some last⟩]) ∧ UDec.rel d' ⟨.idle, []⟩ := by
  obtain ⟨ys, zs, rfl, hys, hzs⟩ := List.map_eq_append_iff.mp hxs
  obtain ⟨⟨_, last⟩, rfl, rfl⟩ := List.map_eq_singleton_iff.mp hzs
  obtain ⟨d₁, hstart, hrel⟩ := decodeStream_start_stuff hwf d _ hys
  obtain ⟨d₂, hend, hrel'⟩ := decodeStream_end_of_rel hwf hrel last
  exact ⟨d₂, last, decodeStream_append hstart hend, hrel'⟩

end Streams

end Sys2Proof.Machine

/-! O42: frames in a row (rules R34, R131). -/

namespace Sys2Proof.Machine

/-- The bytes of frames sent one after the other, each after a gap. -/
def gappedFrames (c : Cfg) (fs : List (List Byte × BitVec 4 × BitVec 18)) : List Byte :=
  fs.flatMap fun f => f.1 ++ frameBytes c f.2.1 f.2.2

/-- A gap is dropped, its frame is delivered, and the decoder is in `IDLE` again for the rest. -/
theorem decodeStream_gappedFrames {c : Cfg} {cw tw : Nat} (hwf : c.WF) (fs : List (List Byte × BitVec 4 × BitVec 18))
    (hgaps : ∀ f ∈ fs, c.START ∉ f.1) {d : Dec cw} (hidle : d.decState = .idle) {xs : List (Byte × BitVec tw)}
    (hxs : xs.map Prod.fst = gappedFrames c fs) :
    ∃ d' es, decodeStream c d xs = .ok (d', es) ∧ es.map eventFields = fs.map (fun f => some f.2) ∧
      d'.decState = .idle := by
  induction fs generalizing d xs with
  | nil =>
    rw [List.map_eq_nil_iff.mp hxs]
    exact ⟨d, [], rfl, rfl, hidle⟩
  | cons f fs ih =>
    obtain ⟨gap, command, data⟩ := f
    rw [List.forall_mem_cons] at hgaps
    obtain ⟨hgap, hgaps⟩ := hgaps
    obtain ⟨xs, later, rfl, hxs, hlater⟩ := List.map_eq_append_iff.mp hxs
    obtain ⟨before, frame, rfl, rfl, hframe⟩ := List.map_eq_append_iff.mp hxs
    have hdropped : decodeStream c d before = .ok (d, []) :=
      decodeStream_idle hidle fun x hx hstart => hgap (hstart ▸ List.mem_map_of_mem hx)
    obtain ⟨d₁, last, hdelivered, hidle₁, -⟩ := decodeStream_frameBytes hwf d hframe
    obtain ⟨d₂, es, hrest, hes, hidle₂⟩ := ih hgaps hidle₁ hlater
    exact ⟨d₂, _, decodeStream_append (decodeStream_append hdropped hdelivered) hrest, by simp [hes, eventFields],
      hidle₂⟩

/-- Settles O42, by induction on the frames. -/
theorem framesDeliveredInOrder : Obligations.FramesDeliveredInOrder :=
  fun _ _ _ fs _ _ hwf hidle hgaps hlen =>
    decodeStream_gappedFrames hwf fs hgaps hidle (List.map_fst_zip hlen.le)

end Sys2Proof.Machine

/-! The packed payload as three strings of bits, one after the other (rules R27, R41, R46, R47). -/

namespace Sys2Proof.Machine

/-- Joining three bytes is writing them one after the other (rule R27). -/
theorem joinWord_eq_append (b0 b1 b2 : Byte) : joinWord b0 b1 b2 = b0 ++ b1 ++ b2 := by
  rw [← BitVec.setWidth_eq (b0 ++ b1 ++ b2), BitVec.setWidth_append_append_eq_shiftLeft_setWidth_or]
  rfl

/-- The payload is `command`, `data` and the two pad bits (rule R46). -/
theorem packWord_eq_append (command : BitVec 4) (data : BitVec 18) :
    packWord command data = command ++ data ++ 0#2 := by
  rw [← BitVec.setWidth_eq (command ++ data ++ 0#2), BitVec.setWidth_append_append_eq_shiftLeft_setWidth_or]
  exact (BitVec.or_zero).symm

/-- The payload's three bytes (rules R41, R46): the first holds the top of `data` under `command`, the last the pad. -/
theorem pack_eq (command : BitVec 4) (data : BitVec 18) :
    pack command data =
      (command ++ data.extractLsb' 14 4, data.extractLsb' 6 8, data.extractLsb' 0 6 ++ 0#2) := by
  have hfirst : (packWord command data).extractLsb' 16 8 = command ++ data.extractLsb' 14 4 := by
    rw [packWord_eq_append, BitVec.extractLsb'_append_eq_of_le (by decide),
      ← BitVec.extractLsb'_append_extractLsb'_eq_extractLsb' (start₂ := 18) (len₂ := 4) (len₁ := 4) rfl,
      BitVec.extractLsb'_append_eq_left, BitVec.extractLsb'_append_eq_of_add_le (by decide)]
  have hsecond : (packWord command data).extractLsb' 8 8 = data.extractLsb' 6 8 := by
    rw [packWord_eq_append, BitVec.extractLsb'_append_eq_of_le (by decide),
      BitVec.extractLsb'_append_eq_of_add_le (by decide)]
  have hthird : (packWord command data).extractLsb' 0 8 = data.extractLsb' 0 6 ++ 0#2 := by
    rw [packWord_eq_append,
      ← BitVec.extractLsb'_append_extractLsb'_eq_extractLsb' (start₂ := 2) (len₂ := 6) (len₁ := 2) rfl,
      BitVec.extractLsb'_append_eq_right, BitVec.extractLsb'_append_eq_of_le le_rfl,
      BitVec.extractLsb'_append_eq_of_add_le (by decide)]
  rw [pack, hfirst, hsecond, hthird]

/-- Settles O5. -/
theorem packLayout : Obligations.PackLayout := by
  intro command data s
  change execPack command data s = _
  rw [execPack, pack_eq]
  rfl

end Sys2Proof.Machine

/-! O58, O59, O60: words and instructions (rules R41, R43, R49, R52, R53, log entry 12). -/

namespace Sys2Proof.Machine

/-- A 32-bit operand is its four bytes, top byte first (rule R49). -/
theorem extractLsb'_bytes_append (data : BitVec 32) :
    data.extractLsb' 24 8 ++ data.extractLsb' 16 8 ++ data.extractLsb' 8 8 ++ data.extractLsb' 0 8 = data := by
  rw [BitVec.extractLsb'_append_extractLsb'_eq_extractLsb' (start₁ := 16) (len₁ := 8) rfl,
    BitVec.extractLsb'_append_extractLsb'_eq_extractLsb' (start₁ := 8) (len₁ := 8) rfl,
    BitVec.extractLsb'_append_extractLsb'_eq_extractLsb' (start₁ := 0) (len₁ := 8) rfl]
  exact BitVec.extractLsb'_eq_self

theorem decodeReq_encodeReq (lane : Lane) (k : BitVec Config.W_CMD_IN → BitVec Config.W_DATA_IN → Instr)
    (cmd : BitVec Config.W_CMD_IN) (data : BitVec Config.W_DATA_IN) :
    decodeReq lane k (encodeReq cmd data) = .ok (k cmd data) := by
  simp only [encodeReq, decodeReq, extractLsb'_bytes_append]

/-- The three bytes that `encodePacked` writes are those of `PACK`. -/
theorem append_encodePacked (command : BitVec 4) (data : BitVec 18) :
    (command ++ data.extractLsb' 14 4 : Byte) ++ (data.extractLsb' 6 8 : Byte) ++ (data.extractLsb' 0 6 ++ 0#2 : Byte) =
      packWord command data := by
  rw [← joinWord_extractLsb' (packWord command data), joinWord_eq_append]
  obtain ⟨h0, h1, h2⟩ : _ ∧ _ ∧ _ := by simpa only [pack, Prod.mk.injEq] using pack_eq command data
  rw [h0, h1, h2]

theorem decodePacked_encodePacked (command : BitVec 4) (data : BitVec 18) :
    decodePacked (encodePacked command data) = .ok (.pack command data) := by
  obtain ⟨hcommand, hdata⟩ := extractLsb'_packWord command data
  have hpad : (packWord command data).extractLsb' 0 2 = 0#2 := by
    rw [packWord_eq_append, BitVec.extractLsb'_append_eq_right]
  simp only [encodePacked, decodePacked, append_encodePacked, hpad, hcommand, hdata, if_true]

/-- Settles O58: by the row; a request and a packed payload are put together again from their bytes, a `FEED` case is
found again from the class of its byte and the state that selects it. -/
theorem decodeOfEncode : Obligations.DecodeOfEncode := by
  intro i st hwf hsel
  cases i with
  | frameNew cmd data => exact decodeReq_encodeReq (.stage .frameNew) .frameNew cmd data
  | enc cmd data => exact decodeReq_encodeReq (.stage .enc) .enc cmd data
  | encAccept cmd data => exact decodeReq_encodeReq .encReq .encAccept cmd data
  | pack command data => exact decodePacked_encodePacked command data
  | feedEndIdle | feedEscIdle | feedEndAcc now | feedEscAcc | feedEndEscd | feedEscEscd =>
    cases beq_iff_eq.mp hsel
    rfl
  | feedLitIdle b | feedLitAcc b | feedLitEscd b =>
    have hclass : classify cfg b = .literal := beq_iff_eq.mp hwf
    cases beq_iff_eq.mp hsel
    simp [encode, decode, feedCase, hclass]
  | cksum | stuff | delimit | encEmit | feed | feedStart | append | closeLen | closeCk | unpack | reset => rfl

/-- The case that a byte selects is a row of its own state, its literal no marker (rules R43, R52). -/
theorem feedCase_wf_selectedIn (st : DecState) (b : Byte) (now : BitVec Config.TS_W) :
    (feedCase st b now).wf = true ∧ (feedCase st b now).selectedIn st = true := by
  cases hclass : classify cfg b with
  | startMarker | endMarker | escMarker =>
    simp only [feedCase, hclass]
    cases st <;> exact ⟨rfl, rfl⟩
  | literal =>
    simp only [feedCase, hclass]
    cases st <;> exact ⟨beq_iff_eq.mpr hclass, rfl⟩

theorem decodePacked_ok {bs : List Byte} {i : Instr} (h : decodePacked bs = .ok i) :
    ∃ command data, i = .pack command data := by
  unfold decodePacked at h
  split at h
  · dsimp only at h
    split_ifs at h
    cases h
    exact ⟨_, _, rfl⟩
  · cases h

/-- A stage's word is a stage, well formed and selected in any decoder state. -/
theorem decodeStage_ok {k : Stage} {bs : List Byte} {now : BitVec Config.TS_W} {i : Instr}
    (h : decodeStage k bs now = .ok i) (st : DecState) : i.wf = true ∧ i.selectedIn st = true := by
  cases k with
  | frameNew =>
    obtain ⟨cmd, data, rfl⟩ := decodeReq_ok (lane := .stage .frameNew) (k := .frameNew) h
    exact ⟨rfl, rfl⟩
  | enc =>
    obtain ⟨cmd, data, rfl⟩ := decodeReq_ok (lane := .stage .enc) (k := .enc) h
    exact ⟨rfl, rfl⟩
  | pack =>
    obtain ⟨command, data, rfl⟩ := decodePacked_ok h
    exact ⟨rfl, rfl⟩
  | stuff | delimit =>
    cases h
    exact ⟨rfl, rfl⟩
  | cksum =>
    rcases bs with _ | ⟨b0, _ | ⟨b1, _ | ⟨b2, _ | ⟨b3, bs⟩⟩⟩⟩ <;> cases h
    exact ⟨rfl, rfl⟩
  | append =>
    rcases bs with _ | ⟨v, _ | ⟨v', bs⟩⟩ <;> cases h
    exact ⟨rfl, rfl⟩
  | closeLen | closeCk | unpack =>
    cases bs <;> cases h
    exact ⟨rfl, rfl⟩

/-- Settles O59: by the lane; at the RX port one byte always selects a case. -/
theorem decodeIsSelective : Obligations.DecodeIsSelective := by
  refine ⟨fun st w i h => ?_, fun st b now => ⟨feedCase st b now, rfl⟩⟩
  obtain ⟨lane, bytes, now⟩ := w
  cases lane with
  | rst | txReady | feed =>
    rcases bytes with _ | ⟨b, _ | ⟨b', bs⟩⟩ <;> cases h
    exact ⟨rfl, rfl⟩
  | rx =>
    rcases bytes with _ | ⟨b, _ | ⟨b', bs⟩⟩ <;> cases h
    exact feedCase_wf_selectedIn st b now
  | encReq =>
    obtain ⟨cmd, data, rfl⟩ := decodeReq_ok (lane := .encReq) (k := .encAccept) h
    exact ⟨rfl, rfl⟩
  | stage k => exact decodeStage_ok h st

/-- Settles O60: the eight words, read. -/
theorem sampleWordsDecode : Obligations.SampleWordsDecode := ⟨rfl, rfl, rfl, rfl, rfl, rfl, rfl, rfl⟩

end Sys2Proof.Machine

/-! O13: how long a frame is (rules R45, R58, R59). -/

namespace Sys2Proof.Machine

/-- Stuffing adds one byte for each marker (rule R58). -/
theorem length_stuff (c : Cfg) (bs : List Byte) : (stuff c bs).length = bs.length + bs.countP (isMarker c) := by
  induction bs with
  | nil => rfl
  | cons v bs ih =>
    rw [stuff, List.countP_cons]
    split_ifs
    · simp only [List.length_cons, ih]; omega
    · simp only [List.length_cons, ih]; omega

/-- A frame is its stuffed body between two markers (rule R45). -/
theorem length_frameBytes (c : Cfg) (command : BitVec 4) (data : BitVec 18) :
    (frameBytes c command data).length = 6 + (bodyOf c command data).toList.countP (isMarker c) := by
  have hbody : (bodyOf c command data).toList.length = 4 := rfl
  simp only [frameBytes, delimit, List.length_append, length_stuff, List.length_singleton, hbody]
  omega

theorem countP_isMarker_bodyOf_le (c : Cfg) (command : BitVec 4) (data : BitVec 18) :
    (bodyOf c command data).toList.countP (isMarker c) ≤ 4 := List.countP_le_length

/-- The markers of the default configuration have a low bit set; the third byte of a packed body has none (rule R46). -/
theorem not_isMarker_bodyOf_b2 (command : BitVec 4) (data : BitVec 18) :
    isMarker cfg (bodyOf cfg command data).b2 = false := by
  have hmarkers : ∀ m ∈ cfg.markers, m.extractLsb' 0 2 ≠ 0#2 := by decide
  rw [Bool.eq_false_iff, Ne, isMarker_iff]
  exact fun hmem => hmarkers _ hmem (bodyOf_pad cfg command data)

/-- Settles O13: each marker of the body costs one byte. -/
theorem frameLengthBounds : Obligations.FrameLengthBounds := by
  refine ⟨fun c command data => ?_, fun command data => ?_⟩
  · have hmarkers : isMarker c = fun v => decide (v ∈ c.markers) :=
      funext fun v => Bool.eq_iff_iff.mpr (by rw [isMarker_iff, decide_eq_true_iff])
    have hle := countP_isMarker_bodyOf_le c command data
    have hlen := length_frameBytes c command data
    exact ⟨hmarkers ▸ hlen, by omega, by omega⟩
  · have hle := countP_isMarker_bodyOf_le cfg command data
    have hne : (bodyOf cfg command data).toList.countP (isMarker cfg) ≠ 4 := fun hall => by
      have hb2 := List.countP_eq_length.mp hall (bodyOf cfg command data).b2 (by simp [Body.toList])
      rw [not_isMarker_bodyOf_b2] at hb2
      cases hb2
    have hlen := length_frameBytes cfg command data
    omega

end Sys2Proof.Machine

/-! O33: what a close reads of the body (rules R47, R48, R75, R84). -/

namespace Sys2Proof.Machine

/-- The fields of a decoded Frame, byte by byte: the pad bits and the checksum are not read (rules R47, R48). -/
theorem unpackFrame_eq {tw : Nat} (b0 b1 b2 ck : Byte) (now : BitVec tw) :
    unpackFrame ⟨b0, b1, b2, ck⟩ now =
      ⟨b0.extractLsb' 4 4, b0.extractLsb' 0 4 ++ b1 ++ b2.extractLsb' 2 6, some now⟩ := by
  have hcommand : (joinWord b0 b1 b2).extractLsb' 20 4 = b0.extractLsb' 4 4 := by
    rw [joinWord_eq_append, BitVec.extractLsb'_append_eq_of_le (by decide),
      BitVec.extractLsb'_append_eq_of_le (by decide)]
  have hupper : (b0 ++ b1).extractLsb' 0 12 = b0.extractLsb' 0 4 ++ b1 := by
    rw [← BitVec.extractLsb'_append_extractLsb'_eq_extractLsb' (start₂ := 8) (len₂ := 4) (len₁ := 8) rfl,
      BitVec.extractLsb'_append_eq_of_le le_rfl, BitVec.extractLsb'_append_eq_right]
  have hdata : (joinWord b0 b1 b2).extractLsb' 2 18 = b0.extractLsb' 0 4 ++ b1 ++ b2.extractLsb' 2 6 := by
    rw [joinWord_eq_append,
      ← BitVec.extractLsb'_append_extractLsb'_eq_extractLsb' (start₂ := 8) (len₂ := 12) (len₁ := 6) rfl,
      BitVec.extractLsb'_append_eq_of_le le_rfl, BitVec.extractLsb'_append_eq_of_add_le le_rfl, hupper]
  rw [unpackFrame, hcommand, hdata]

/-- The close of a checked body in the machine: the Frame, and the decoder in `IDLE` (rules R75, R84). -/
theorem exec_feedEndAcc_of_checks (now : BitVec 64) (s : State) {b0 b1 b2 ck : Byte}
    (hst : s.dec.decState = .accumulating) (hlen : s.dec.decLen.val = 4) (hholds : s.dec.holds b0 b1 b2 ck)
    (hck : crc8 b0 b1 b2 = ck) :
    exec (.feedEndAcc now) s = .next (s.withDec s.dec.toIdle (.frame (unpackFrame ⟨b0, b1, b2, ck⟩ now))) := by
  change s.runCase (s.decIn .accumulating) (s.dec.close cfg now) = _
  rw [decIn_iff.mpr hst, Dec.close_of_holds cfg now s.dec b0 b1 b2 ck hlen hholds, if_pos hck]
  rfl

/-- Settles O33: the Frame of a body is in its bytes above the pad. -/
theorem padBitsIgnored : Obligations.PadBitsIgnored := by
  intro now s t b0 b1 hi p q hs ht hslen htlen hsholds htholds
  have hpad (r : BitVec 2) (ck : Byte) : unpackFrame ⟨b0, b1, hi ++ r, ck⟩ now =
      ⟨b0.extractLsb' 4 4, b0.extractLsb' 0 4 ++ b1 ++ hi, some now⟩ := by
    rw [unpackFrame_eq, BitVec.extractLsb'_append_eq_left]
  exact ⟨_, _, _, exec_feedEndAcc_of_checks now s hs hslen hsholds rfl,
    exec_feedEndAcc_of_checks now t ht htlen htholds rfl, congrArg _ (hpad p _), congrArg _ (hpad q _)⟩

end Sys2Proof.Machine

/-! O4: requests that are negative numbers (rules R49, R55, R61). -/

namespace Sys2Proof.Machine

/-- In an idle encoder an operand beyond its range is refused, and the block stays as it is (rule R61). -/
theorem exec_encAccept_outOfRange {cmd : BitVec 8} {data : BitVec 32} {s : State}
    (hbusy : s.enc.encBusy = false) (hesc : s.enc.encEsc = false)
    (hrange : ¬ (cmd.toNat ≤ 15 ∧ data.toNat ≤ 262143)) :
    exec (.encAccept cmd data) s = .next { s with out := Outputs.ofRsp .outOfRange } := by
  change execEncAccept cmd data s = _
  simp [execEncAccept_eq, Enc.accept_eq, hbusy, hesc, hrange]

/-- Settles O4: the two's complement of a negative number has its top bit set, which no operand in range has. -/
theorem negativeRequestRefused : Obligations.NegativeRequestRefused := by
  intro v cmd data s hbusy hesc
  refine ⟨fun ⟨hmin, hneg⟩ => exec_encAccept_outOfRange hbusy hesc fun ⟨hcmd, _⟩ => ?_,
    fun ⟨hmin, hneg⟩ => exec_encAccept_outOfRange hbusy hesc fun ⟨_, hdata⟩ => ?_⟩
  · rw [BitVec.toNat_ofInt] at hcmd
    omega
  · rw [BitVec.toNat_ofInt] at hdata
    omega

end Sys2Proof.Machine

/-! O20, O32: `FEED` and its cases (rules R43, R52, R70), and the guards of the rows (log entries 6, 7, 13). -/

namespace Sys2Proof.Machine

theorem eq_END_of_classify {c : Cfg} {b : Byte} (h : classify c b = .endMarker) : b = c.END := by
  unfold classify at h
  split_ifs at h with hstart hend
  exact hend

theorem eq_ESC_of_classify {c : Cfg} {b : Byte} (h : classify c b = .escMarker) : b = c.ESC := by
  unfold classify at h
  split_ifs at h with hstart hend hesc
  exact hesc

/-- Where a case is selected, it is the decoder's step. -/
theorem State.runCase_of_selected {selected : Bool} {r : Except Fault (Dec Config.CNT_W × Event Config.TS_W)}
    {s : State} (h : selected = true) : s.runCase selected r = s.runDec r := if_pos h

/-- `FEED` is the case selected by the byte's class and `dec_state` (rules R52, R70). -/
theorem exec_feed_eq_feedCase (b : Byte) (now : BitVec Config.TS_W) (s : State) :
    exec (.feed b now) s = exec (feedCase s.dec.decState b now) s := by
  change execFeed b now s = _
  rw [execFeed_eq]
  cases hclass : classify cfg b with
  | startMarker =>
    simp only [Dec.feed, feedCase, hclass]
    rfl
  | endMarker =>
    obtain rfl := eq_END_of_classify hclass
    cases hst : s.dec.decState <;> simp only [Dec.feed, feedCase, hclass, hst] <;>
      exact (State.runCase_of_selected (decIn_iff.mpr hst)).symm
  | escMarker =>
    obtain rfl := eq_ESC_of_classify hclass
    cases hst : s.dec.decState <;> simp only [Dec.feed, feedCase, hclass, hst] <;>
      exact (State.runCase_of_selected (decIn_iff.mpr hst)).symm
  | literal =>
    cases hst : s.dec.decState <;> simp only [Dec.feed, feedCase, hclass, hst] <;>
      exact (State.runCase_of_selected (decIn_and_isLiteral_iff.mpr ⟨hst, hclass⟩)).symm

/-- Settles O20: `feedCase`, read at each of the ten pairs of class and `dec_state`. -/
theorem feedIsOneOfTenCases : Obligations.FeedIsOneOfTenCases := by
  intro b now s
  rw [exec_feed_eq_feedCase]
  refine ⟨?_, ?_, ?_, ?_, ?_, ?_, ?_, fun hstart hend hesc => ?_⟩
  case refine_1 =>
    rintro rfl
    rfl
  case refine_8 =>
    have hclass : classify cfg b = .literal := by simp [classify, hstart, hend, hesc]
    refine ⟨fun hst => ?_, fun hst => ?_, fun hst => ?_⟩ <;> simp only [hst, feedCase, hclass]
  all_goals
    rintro rfl hst
    rw [hst]
    rfl

section Guards

variable {s : State} {st : DecState} {b : Byte} {r : Except Fault (Dec Config.CNT_W × Event Config.TS_W)}

/-- A case stands in its own `dec_state` only (log entry 7). -/
theorem State.runCase_of_decState_ne (h : s.dec.decState ≠ st) :
    s.runCase (s.decIn st) r = .refused .caseNotSelected :=
  if_neg fun hsel => h (decIn_iff.mp hsel)

theorem State.runCase_literal_of_decState_ne (h : s.dec.decState ≠ st) :
    s.runCase (s.decIn st && isLiteral b) r = .refused .caseNotSelected :=
  if_neg fun hsel => h (decIn_and_isLiteral_iff.mp hsel).1

/-- A marker is no literal operand, whatever the `dec_state` (log entry 7). -/
theorem State.runCase_literal_of_marker (hb : b ∈ [0x7E#8, 0x7F#8, 0x7D#8]) :
    s.runCase (s.decIn st && isLiteral b) r = .refused .caseNotSelected :=
  if_neg fun hsel => (isLiteral_iff b).mp ((Bool.and_eq_true _ _).mp hsel).2 hb

end Guards

/-- `CLOSE.CK`, and below `UNPACK`, are reached with length 4 only (rules R83, R84, log entry 6). -/
theorem exec_closeCk_of_decLen_ne {s : State} (hlen : s.dec.decLen.val ≠ 4) :
    exec .closeCk s = .refused .stageNotReached := if_pos ((lenFails_iff _).mpr hlen)

theorem exec_unpack_of_decLen_ne {s : State} (hlen : s.dec.decLen.val ≠ 4) (now : BitVec Config.TS_W) :
    exec (.unpack now) s = .refused .stageNotReached := if_pos ((lenFails_iff _).mpr hlen)

/-- `UNPACK` of a body that fails the check is not reached (rule R84, log entry 6). -/
theorem exec_unpack_of_mismatch {s : State} {b0 b1 b2 ck : Byte} (hlen : s.dec.decLen.val = 4)
    (hholds : s.dec.holds b0 b1 b2 ck) (hck : crc8 b0 b1 b2 ≠ ck) (now : BitVec Config.TS_W) :
    exec (.unpack now) s = .refused .stageNotReached := by
  obtain ⟨h0, h1, h2, h3⟩ := hholds
  change execUnpack now s = _
  rw [execUnpack, Memory.loadBody_of_lookup _ _ _ _ _ h0 h1 h2 h3]
  simp [lenFails_iff, hlen, ckFails, cksum, hck]

/-- Settles O32, by the guard of each row. -/
theorem guardsRefuseByName : Obligations.GuardsRefuseByName := by
  intro s
  refine ⟨fun hst => ?_, fun hst => ?_, fun hst => ?_, fun b hb => ?_, fun hlen => ?_,
    fun b0 b1 b2 ck now hlen hholds hck => exec_unpack_of_mismatch hlen hholds hck now,
    fun hbusy hesc cmd data => ?_⟩
  · exact ⟨State.runCase_of_decState_ne hst, State.runCase_of_decState_ne hst,
      fun _ => State.runCase_literal_of_decState_ne hst⟩
  · exact ⟨fun _ => State.runCase_of_decState_ne hst, State.runCase_of_decState_ne hst,
      fun _ => State.runCase_literal_of_decState_ne hst⟩
  · exact ⟨State.runCase_of_decState_ne hst, State.runCase_of_decState_ne hst,
      fun _ => State.runCase_literal_of_decState_ne hst⟩
  · exact ⟨State.runCase_literal_of_marker hb, State.runCase_literal_of_marker hb,
      State.runCase_literal_of_marker hb⟩
  · exact ⟨exec_closeCk_of_decLen_ne hlen, exec_unpack_of_decLen_ne hlen⟩
  · change execEncAccept cmd data s = _
    simp [execEncAccept_eq, hbusy, hesc]

end Sys2Proof.Machine

/-! Operands at the width of a port (rules R49, R55). -/

namespace Sys2Proof.Machine

/-- `FRAME.NEW` at the ports: the low bits of a request in range. -/
theorem frameNew_ports {wc wd : Nat} (cmd : BitVec wc) (data : BitVec wd) :
    frameNew cmd.toNat data.toNat = if cmd.toNat ≤ 15 ∧ data.toNat ≤ 262143
      then some ⟨cmd.extractLsb' 0 4, data.extractLsb' 0 18, none⟩ else none :=
  frameNew_nat cmd.toNat data.toNat

/-- `ENC` at the ports. -/
theorem encodeFrame_ports {wc wd : Nat} (c : Cfg) (cmd : BitVec wc) (data : BitVec wd) :
    encodeFrame c cmd.toNat data.toNat = if cmd.toNat ≤ 15 ∧ data.toNat ≤ 262143
      then some (frameBytes c (cmd.extractLsb' 0 4) (data.extractLsb' 0 18)) else none := by
  rw [encodeFrame, frameNew_ports]
  split_ifs <;> rfl

theorem frameNew_eq_none {command data : Int}
    (h : ¬ (0 ≤ command ∧ command ≤ 15 ∧ 0 ≤ data ∧ data ≤ 262143)) : frameNew command data = none :=
  if_neg fun hrange => h (of_decide_eq_true hrange)

/-- Settles O3: integers in range are natural numbers, and fit the fields. -/
theorem frameNewValidates : Obligations.FrameNewValidates := by
  refine ⟨fun cmd data s => ?_, fun command data => ⟨fun ⟨hc0, hc, hd0, hd⟩ => ?_, frameNew_eq_none⟩⟩
  · change execFrameNew cmd data s = _
    rw [execFrameNew, frameNew_ports]
    split_ifs <;> rfl
  · lift command to ℕ using hc0
    lift data to ℕ using hd0
    refine ⟨_, (frameNew_nat command data).trans (if_pos (by omega)), ?_, ?_, rfl⟩ <;>
      rw [BitVec.toNat_ofNat, Nat.mod_eq_of_lt (by omega)]

end Sys2Proof.Machine

/-! Packing and stuffing lose nothing (rules R56, R58, R60). -/

namespace Sys2Proof.Machine

/-- A body determines its Frame: it can be unpacked. -/
theorem bodyOf_injective {c : Cfg} {c₁ c₂ : BitVec 4} {d₁ d₂ : BitVec 18} (h : bodyOf c c₁ d₁ = bodyOf c c₂ d₂) :
    c₁ = c₂ ∧ d₁ = d₂ := by
  have hframe := congrArg (unpackFrame · 0#0) h
  simpa [unpackFrame_bodyOf] using hframe

theorem Body.toList_injective {w₁ w₂ : Body} (h : w₁.toList = w₂.toList) : w₁ = w₂ := by
  cases w₁
  cases w₂
  simpa [Body.toList] using h

theorem isMarker_ESC (c : Cfg) : isMarker c c.ESC = true := by simp [isMarker]

/-- A byte that stands for itself is not `ESC`, so that the first byte of a stuffed sequence says which of the two cases
of rule R58 it comes from. No `CFG_WF` is needed. -/
theorem stuff_injective (c : Cfg) : Function.Injective (stuff c) := by
  have hne : ∀ {v : Byte}, ¬ isMarker c v = true → v ≠ c.ESC := fun hv he => hv (he ▸ isMarker_ESC c)
  intro as
  induction as with
  | nil =>
    intro bs h
    cases bs with
    | nil => rfl
    | cons w bs =>
      rw [stuff, stuff] at h
      split_ifs at h
  | cons v as ih =>
    intro bs h
    cases bs with
    | nil =>
      rw [stuff, stuff] at h
      split_ifs at h
    | cons w bs =>
      rw [stuff, stuff] at h
      split_ifs at h with hv hw hw
      · obtain ⟨hx, hrest⟩ : xform c v = xform c w ∧ stuff c as = stuff c bs := by simpa using h
        rw [← xform_xform c v, hx, xform_xform, ih hrest]
      · exact absurd (List.cons.inj h).1.symm (hne hw)
      · exact absurd (List.cons.inj h).1 (hne hv)
      · obtain ⟨rfl, hrest⟩ := List.cons.inj h
        rw [ih hrest]

/-- Settles O6: with their checksum the three bytes are a body. -/
theorem packInjective : Obligations.PackInjective := by
  intro c₁ c₂ d₁ d₂ h
  exact bodyOf_injective (c := cfg) (by rw [bodyOf, bodyOf, h])

/-- Settles O14: the delimiters, the stuffing and the packing can each be undone. -/
theorem encodingInjective : Obligations.EncodingInjective := by
  intro c c₁ c₂ d₁ d₂ h
  have hstuffed := List.append_cancel_left (List.append_cancel_right h)
  exact bodyOf_injective (Body.toList_injective (stuff_injective c hstuffed))

end Sys2Proof.Machine

/-! The checksum as polynomial division (rule R57): a 32-bit word without its syndrome is a multiple of the polynomial,
so the syndrome is the remainder. -/

namespace Sys2Proof.Machine

/-- A linear map whose values on the single bits are values of a linear `g` takes only values of `g`. -/
theorem XorLinear.exists_eq {m n p : Nat} {f : BitVec m → BitVec n} {g : BitVec p → BitVec n} (hf : XorLinear f)
    (hg : XorLinear g) (h : ∀ k < m, ∃ q, f (BitVec.twoPow m k) = g q) (e : BitVec m) : ∃ q, f e = g q := by
  have key : ∀ l : List Nat, (∀ k ∈ l, k < m) → ∃ q, f (ofBits m l) = g q := by
    intro l hl
    induction l with
    | nil => exact ⟨0#p, hf.map_zero.trans hg.map_zero.symm⟩
    | cons k l ih =>
      obtain ⟨hk, hl⟩ := List.forall_mem_cons.mp hl
      obtain ⟨q₁, hq₁⟩ := h k hk
      obtain ⟨q₂, hq₂⟩ := ih hl
      exact ⟨q₁ ^^^ q₂, by rw [ofBits_cons, hf, hg, hq₁, hq₂]⟩
  rw [← ofBits_setBits e]
  exact key _ fun _ => lt_of_mem_setBits

/-- `crcMultiple` over the positions of `l` only, added to `acc`. -/
def addMultiples (q : BitVec 24) (l : List Nat) (acc : BitVec 32) : BitVec 32 :=
  l.foldl (fun acc k => if q.getLsbD k then acc ^^^ (0x107#32 <<< k) else acc) acc

theorem addMultiples_xor (a b : BitVec 24) (l : List Nat) (x y : BitVec 32) :
    addMultiples (a ^^^ b) l (x ^^^ y) = addMultiples a l x ^^^ addMultiples b l y := by
  induction l generalizing x y with
  | nil => rfl
  | cons k l ih =>
    refine Eq.trans (congrArg (addMultiples (a ^^^ b) l) ?_) (ih _ _)
    simp only [BitVec.getLsbD_xor]
    cases a.getLsbD k <;> cases b.getLsbD k <;> grind

theorem crcMultiple_xorLinear : XorLinear crcMultiple := fun a b =>
  addMultiples_xor a b (List.range 24) 0#32 0#32

/-- The quotient of `x^k` by `x^8 + x^2 + x + 1`: its bit `j` is the bit that the CRC's shift number `k - j` drops. -/
def quotientTwoPow (k : Nat) : BitVec 24 :=
  ofBits 24 ((List.range (k - 7)).filter fun j => (crcRounds (k - 1 - j) 1#8).msb)

/-- Division with remainder of a single bit. -/
theorem twoPow_xor_syndrome {k : Nat} (hk : k < 32) :
    BitVec.twoPow 32 k ^^^ (syndrome (BitVec.twoPow 32 k)).zeroExtend 32 = crcMultiple (quotientTwoPow k) := by
  have bits : ∀ k : Fin 32, BitVec.twoPow 32 k ^^^ (syndrome (BitVec.twoPow 32 k)).zeroExtend 32 =
      crcMultiple (quotientTwoPow k) := by decide +kernel
  exact bits ⟨k, hk⟩

/-- Division with remainder: the syndrome of a word is its remainder. -/
theorem exists_xor_syndrome_eq_crcMultiple (w : BitVec 32) :
    ∃ q, w ^^^ (syndrome w).zeroExtend 32 = crcMultiple q := by
  have hlinear : XorLinear fun w : BitVec 32 => w ^^^ (syndrome w).zeroExtend 32 := by
    intro a b
    simp only [syndrome_xorLinear a b, BitVec.zeroExtend_eq_setWidth, BitVec.setWidth_xor]
    ac_rfl
  exact hlinear.exists_eq crcMultiple_xorLinear (fun k hk => ⟨_, twoPow_xor_syndrome hk⟩) w

/-- Settles O8: a checked body has syndrome 0, so nothing remains of it. -/
theorem cksumIsPolynomialRemainder : Obligations.CksumIsPolynomialRemainder := by
  refine ⟨crc8_xor, fun b0 b1 b2 => ?_⟩
  obtain ⟨q, hq⟩ := exists_xor_syndrome_eq_crcMultiple (body32 b0 b1 b2 (crc8 b0 b1 b2))
  rw [syndrome_body32, BitVec.xor_self] at hq
  exact ⟨q, by simpa using hq⟩

theorem crc8Update_eq_zero_iff (crc v : Byte) : crc8Update crc v = 0#8 ↔ crc = v := by
  refine Iff.trans ⟨eq_zero_of_crcRounds_eq_zero, fun h => ?_⟩ BitVec.xor_eq_zero_iff
  rw [crc8Update, h, (crcRounds_xorLinear 8).map_zero]

/-- Settles O7: the last update is 0 only on equal bytes. -/
theorem cksumGivesTheCrc : Obligations.CksumGivesTheCrc :=
  ⟨fun _ _ _ _ => rfl, fun _ _ _ _ => crc8Update_eq_zero_iff _ _⟩

end Sys2Proof.Machine

/-! The encoder's rows one by one (rules R58 to R62). -/

namespace Sys2Proof.Machine

/-- The body of a Frame, byte by byte (rules R42, R46). -/
theorem bodyOf_eq (c : Cfg) (command : BitVec 4) (data : BitVec 18) :
    bodyOf c command data =
      ⟨command ++ data.extractLsb' 14 4, data.extractLsb' 6 8, data.extractLsb' 0 6 ++ 0#2,
        c.CK (command ++ data.extractLsb' 14 4) (data.extractLsb' 6 8) (data.extractLsb' 0 6 ++ 0#2)⟩ := by
  rw [bodyOf, pack_eq]
  rfl

/-- Settles O11. -/
theorem delimitFrames : Obligations.DelimitFrames := fun _ _ => rfl

theorem exec_enc (cmd : BitVec 8) (data : BitVec 32) (s : State) :
    exec (.enc cmd data) s = .next (s.giveStage (if cmd.toNat ≤ 15 ∧ data.toNat ≤ 262143
      then .bytes (frameBytes cfg (cmd.extractLsb' 0 4) (data.extractLsb' 0 18)) else .outOfRange)) := by
  change execEnc cmd data s = _
  rw [execEnc, encodeFrame_ports]
  split_ifs <;> rfl

/-- Settles O12: the stages' results are the parts of `frameBytes`. -/
theorem encIsTheStagesInOrder : Obligations.EncIsTheStagesInOrder := by
  intro cmd data s
  rw [exec_enc]
  refine ⟨fun hrange => ?_, fun hrange => by rw [if_neg hrange]⟩
  rw [if_pos hrange]
  exact ⟨_, _, _, _, _, _, rfl, rfl, rfl, rfl, rfl⟩

/-- A request in range starts a frame in an idle encoder (rule R61). -/
theorem Enc.accept_of_inRange {wc wd : Nat} (c : Cfg) {cmd : BitVec wc} {data : BitVec wd} (e : Enc)
    (hrange : cmd.toNat ≤ 15 ∧ data.toNat ≤ 262143) :
    e.accept c cmd data = ({ encWord := bodyOf c (cmd.extractLsb' 0 4) (data.extractLsb' 0 18), encIdx := 0,
                               encEsc := false, encBusy := true }, .ok) := by
  rw [Enc.accept_eq, if_pos hrange]
  rfl

theorem Enc.accept_of_outOfRange {wc wd : Nat} (c : Cfg) {cmd : BitVec wc} {data : BitVec wd} (e : Enc)
    (hrange : ¬ (cmd.toNat ≤ 15 ∧ data.toNat ≤ 262143)) : e.accept c cmd data = (e, .outOfRange) := by
  rw [Enc.accept_eq, if_neg hrange]

/-- In an idle encoder a request in range is taken (rule R61). -/
theorem exec_encAccept_inRange {cmd : BitVec 8} {data : BitVec 32} {s : State} (hbusy : s.enc.encBusy = false)
    (hesc : s.enc.encEsc = false) (hrange : cmd.toNat ≤ 15 ∧ data.toNat ≤ 262143) :
    exec (.encAccept cmd data) s = .next { s with
      enc := { encWord := bodyOf cfg (cmd.extractLsb' 0 4) (data.extractLsb' 0 18), encIdx := 0, encEsc := false,
               encBusy := true }
      out := Outputs.ofRsp .ok } := by
  change execEncAccept cmd data s = _
  simp [execEncAccept_eq, Enc.accept_of_inRange cfg s.enc hrange, hbusy, hesc]

/-- Settles O16: the packed bytes of the low bits are those of the request. -/
theorem encAcceptAnswers : Obligations.EncAcceptAnswers := by
  intro cmd data s hbusy hesc
  refine ⟨fun hrange => ⟨_, _, _, ⟨rfl, rfl, rfl⟩, ?_⟩, exec_encAccept_outOfRange hbusy hesc⟩
  rw [exec_encAccept_inRange hbusy hesc hrange, bodyOf_eq]
  rw [BitVec.extractLsb'_extractLsb'_of_le (by decide), BitVec.extractLsb'_extractLsb'_of_le (by decide),
    BitVec.extractLsb'_extractLsb'_of_le (by decide)]
  rfl

theorem exec_encEmit_of_busy {s : State} (hbusy : s.enc.encBusy = true) :
    exec .encEmit s = .next { s with enc := (s.enc.emit cfg).1, out := Outputs.ofTx (s.enc.emit cfg).2 } :=
  (execEncEmit_eq s).trans (if_pos hbusy)

theorem exec_encEmit_of_idle {s : State} (hbusy : s.enc.encBusy = false) : exec .encEmit s = .next s.quiet :=
  (execEncEmit_eq s).trans (if_neg (by simp [hbusy]))

/-- Settles O17. -/
theorem disabledOperationsWait : Obligations.DisabledOperationsWait :=
  ⟨fun cmd data s hbusy => (execEncAccept_eq cmd data s).trans (if_pos hbusy), fun _ => exec_encEmit_of_idle⟩

/-! The sequencer's moves (rule R62). -/

theorem Body.byteAt_of_getElem? {w : Body} {i : Nat} {v : Byte} (h : w.toList[i]? = some v) :
    i < 4 ∧ w.byteAt i = v := by
  obtain ⟨hi, hv⟩ := List.getElem?_eq_some_iff.mp h
  have hi : i < 4 := hi
  refine ⟨hi, ?_⟩
  interval_cases i <;> exact hv

namespace Enc

variable (c : Cfg) {e : Enc} {v : Byte}

theorem emit_START (hidx : e.encIdx.val = 0) : e.emit c = ({ e with encIdx := 1 }, ⟨c.START, false⟩) := if_pos hidx

theorem emit_END (hidx : e.encIdx.val = 5) :
    e.emit c = ({ e with encIdx := 0, encEsc := false, encBusy := false }, ⟨c.END, true⟩) := by
  simp [emit, hidx]

/-- Between the delimiters: a byte of the body, escaped in two moves where it is a marker. -/
theorem emit_body (hpos : 1 ≤ e.encIdx.val) (hv : e.encWord.toList[e.encIdx.val - 1]? = some v) :
    e.emit c = if e.encEsc then ({ e with encEsc := false, encIdx := idxSucc e.encIdx }, ⟨xform c v, false⟩)
      else if isMarker c v then ({ e with encEsc := true }, ⟨c.ESC, false⟩)
      else ({ e with encIdx := idxSucc e.encIdx }, ⟨v, false⟩) := by
  obtain ⟨hlt, hbyte⟩ := Body.byteAt_of_getElem? hv
  rw [emit, if_neg (by omega), if_neg (by omega), hbyte]

theorem emit_escaped (hpos : 1 ≤ e.encIdx.val) (hv : e.encWord.toList[e.encIdx.val - 1]? = some v)
    (hesc : e.encEsc = true) :
    e.emit c = ({ e with encEsc := false, encIdx := idxSucc e.encIdx }, ⟨xform c v, false⟩) := by
  rw [emit_body c hpos hv, if_pos hesc]

theorem emit_marker (hpos : 1 ≤ e.encIdx.val) (hv : e.encWord.toList[e.encIdx.val - 1]? = some v)
    (hesc : e.encEsc = false) (hmark : isMarker c v = true) :
    e.emit c = ({ e with encEsc := true }, ⟨c.ESC, false⟩) := by
  rw [emit_body c hpos hv, if_neg (by simp [hesc]), if_pos hmark]

theorem emit_plain (hpos : 1 ≤ e.encIdx.val) (hv : e.encWord.toList[e.encIdx.val - 1]? = some v)
    (hesc : e.encEsc = false) (hmark : ¬ isMarker c v = true) :
    e.emit c = ({ e with encIdx := idxSucc e.encIdx }, ⟨v, false⟩) := by
  rw [emit_body c hpos hv, if_neg (by simp [hesc]), if_neg hmark]

end Enc

theorem mem_markers_iff {c : Cfg} {v : Byte} : v ∈ c.markers ↔ v = c.START ∨ v = c.END ∨ v = c.ESC := by
  simp [Cfg.markers]

theorem isMarker_iff_eq (c : Cfg) (v : Byte) : isMarker c v = true ↔ v = c.START ∨ v = c.END ∨ v = c.ESC :=
  (isMarker_iff c v).trans mem_markers_iff

/-- Settles O18, position by position. -/
theorem encEmitSequence : Obligations.EncEmitSequence := by
  intro s hbusy
  rw [exec_encEmit_of_busy hbusy]
  refine ⟨fun hidx => ?_, fun hidx => ?_, fun v hpos hv => ⟨idxSucc s.enc.encIdx, fun hle => ?_,
    fun hesc => ?_, fun hesc hmark => ?_, fun hesc hmark => ?_⟩⟩
  · rw [Enc.emit_START cfg hidx]; rfl
  · rw [Enc.emit_END cfg hidx]; rfl
  · rw [idxSucc_val]; omega
  · rw [Enc.emit_escaped cfg hpos hv hesc]; rfl
  · rw [Enc.emit_marker cfg hpos hv hesc ((isMarker_iff_eq cfg v).mpr hmark)]; rfl
  · rw [Enc.emit_plain cfg hpos hv hesc (mt (isMarker_iff_eq cfg v).mp hmark)]; rfl

end Sys2Proof.Machine

/-! What stuffing leaves of the markers (rules R58, R64). -/

namespace Sys2Proof.Machine

theorem isMarker_eq_decide_mem (c : Cfg) : isMarker c = fun v => decide (v ∈ c.markers) :=
  funext fun v => Bool.eq_iff_iff.mpr (by rw [isMarker_iff, decide_eq_true_iff])

/-- Rule R58's sequence, byte by byte. -/
theorem stuff_eq_flatMap (c : Cfg) (body : List Byte) :
    stuff c body = body.flatMap fun v =>
      if v = c.START ∨ v = c.END ∨ v = c.ESC then [c.ESC, v ^^^ c.MASK] else [v] := by
  induction body with
  | nil => rfl
  | cons v body ih =>
    rw [stuff, List.flatMap_cons, ih]
    simp only [isMarker_iff_eq]
    split_ifs <;> rfl

/-- The one marker of a stuffed sequence is `ESC`. -/
theorem mem_stuff {c : Cfg} (hwf : c.WF) {body : List Byte} {v : Byte} (hv : v ∈ stuff c body) :
    v = c.ESC ∨ v ∉ c.markers := by
  obtain ⟨-, hmask, -⟩ := hwf
  induction body with
  | nil => cases hv
  | cons b body ih =>
    rw [stuff] at hv
    split_ifs at hv with hb
    · rcases List.mem_cons.mp hv with rfl | hv
      · exact .inl rfl
      rcases List.mem_cons.mp hv with rfl | hv
      · exact .inr (hmask b ((isMarker_iff c b).mp hb))
      · exact ih hv
    · rcases List.mem_cons.mp hv with rfl | hv
      · exact .inr (mt (isMarker_iff c v).mpr hb)
      · exact ih hv

theorem START_END_not_mem_stuff {c : Cfg} (hwf : c.WF) (body : List Byte) :
    c.START ∉ stuff c body ∧ c.END ∉ stuff c body := by
  obtain ⟨-, hstart, hend⟩ := hwf.1
  exact ⟨fun hmem => (mem_stuff hwf hmem).elim hstart (· (mem_markers_iff.mpr (.inl rfl))),
    fun hmem => (mem_stuff hwf hmem).elim hend (· (mem_markers_iff.mpr (.inr (.inl rfl))))⟩

/-- An `ESC` of a stuffed sequence is followed by a transformed marker. -/
theorem getElem?_stuff_of_ESC {c : Cfg} (hwf : c.WF) {body : List Byte} {i : Nat}
    (hi : (stuff c body)[i]? = some c.ESC) : ∃ m ∈ c.markers, (stuff c body)[i + 1]? = some (xform c m) := by
  induction body generalizing i with
  | nil => simp [stuff] at hi
  | cons v body ih =>
    rw [stuff] at hi ⊢
    split_ifs at hi ⊢ with hv
    · match i with
      | 0 => exact ⟨v, (isMarker_iff c v).mp hv, rfl⟩
      | 1 =>
        have hx : xform c v = c.ESC := by simpa using hi
        exact absurd (classify_xform hwf hv) (by simp [hx, classify_ESC hwf])
      | i + 2 => exact ih hi
    · match i with
      | 0 =>
        obtain rfl : v = c.ESC := by simpa using hi
        exact absurd (isMarker_ESC c) hv
      | i + 1 => exact ih hi

/-- A stuffed sequence does not end with `ESC`: nothing would follow it. -/
theorem getLast?_stuff_ne_ESC {c : Cfg} (hwf : c.WF) (body : List Byte) : (stuff c body).getLast? ≠ some c.ESC := by
  rw [List.getLast?_eq_getElem?]
  intro hlast
  obtain ⟨m, -, hnext⟩ := getElem?_stuff_of_ESC hwf hlast
  obtain ⟨hlt, -⟩ := List.getElem?_eq_some_iff.mp hnext
  omega

/-- Settles O10. -/
theorem stuffEscapesMarkers : Obligations.StuffEscapesMarkers := by
  refine ⟨fun body s => ?_, fun c body => ?_, fun c body hwf => ?_⟩
  · change execStuff body s = _
    rw [execStuff, stuff_eq_flatMap]
    rfl
  · rw [length_stuff, isMarker_eq_decide_mem]
  · obtain ⟨hstart, hend⟩ := START_END_not_mem_stuff hwf body
    refine ⟨hstart, hend, fun i hi => ?_⟩
    obtain ⟨m, hm, hnext⟩ := getElem?_stuff_of_ESC hwf hi
    exact ⟨_, hnext, hwf.2.1 m hm⟩

/-- Settles O15, on the stuffed body of the frame. -/
theorem framesAreMarkerFree : Obligations.FramesAreMarkerFree := by
  intro c command data hwf
  obtain ⟨hstart, hend⟩ := START_END_not_mem_stuff hwf (bodyOf c command data).toList
  refine ⟨stuff c (bodyOf c command data).toList, rfl, fun v hv => ⟨?_, ?_⟩, fun i hi => ?_,
    getLast?_stuff_ne_ESC hwf _⟩
  · rintro rfl; exact hstart hv
  · rintro rfl; exact hend hv
  · obtain ⟨m, hm, hnext⟩ := getElem?_stuff_of_ESC hwf hi
    have hxform := (mem_markers_iff.mp hm).imp (congrArg (xform c)) (Or.imp (congrArg (xform c)) (congrArg (xform c)))
    exact ⟨_, hnext, hxform, hwf.2.1 m hm⟩

end Sys2Proof.Machine

/-! O19: an accepted request is emitted as its frame (rules R61 to R63). -/

namespace Sys2Proof.Machine

/-- The encoder in flight: `idx` of its positions done, no escape owed. -/
def Enc.sending (w : Body) (idx : Fin 6) : Enc where
  encWord := w
  encBusy := true
  encIdx := idx
  encEsc := false

/-- The encoder after the frame: idle, its word as it was. -/
def Enc.sent (w : Body) : Enc where
  encWord := w
  encBusy := false
  encIdx := 0
  encEsc := false

section Emission

variable {c : Cfg}

theorem emitAll_of_idle {e : Enc} (hbusy : e.encBusy = false) (fuel : Nat) : emitAll c fuel e = (e, []) := by
  cases fuel with
  | zero => rfl
  | succ fuel => exact if_neg (by simp [hbusy])

/-- One move of a busy encoder, then the rest. -/
theorem emitAll_of_emit {e e' e'' : Enc} {t : TxByte} {ts : List TxByte} {fuel : Nat} (hbusy : e.encBusy = true)
    (hemit : e.emit c = (e', t)) (hrest : emitAll c fuel e' = (e'', ts)) :
    emitAll c (fuel + 1) e = (e'', t :: ts) := by
  simp [emitAll, hbusy, hemit, hrest]

/-- From the position of the byte `bs` starts with, the emissions are `bs` stuffed, then `END`: two moves for a marker,
one for any other byte, one for `END`. -/
theorem emitAll_sending (w : Body) (bs : List Byte) {idx : Fin 6} (hpos : 1 ≤ idx.val)
    (hbs : w.toList.drop (idx.val - 1) = bs) {fuel : Nat} (hfuel : 2 * bs.length + 1 ≤ fuel) :
    emitAll c fuel (Enc.sending w idx) =
      (Enc.sent w, (stuff c bs).map (⟨·, false⟩) ++ [⟨c.END, true⟩]) := by
  induction bs generalizing idx fuel with
  | nil =>
    obtain ⟨fuel, rfl⟩ : ∃ n, fuel = n + 1 := Nat.exists_eq_add_of_le' hfuel
    have hidx : idx.val = 5 := by
      have hlen : 4 ≤ idx.val - 1 := List.drop_eq_nil_iff.mp hbs
      omega
    exact emitAll_of_emit rfl (Enc.emit_END c (e := Enc.sending w idx) hidx) (emitAll_of_idle rfl fuel)
  | cons v bs ih =>
    have hv : w.toList[idx.val - 1]? = some v := by
      rw [← List.head?_drop, hbs]
      rfl
    have hlt := (Body.byteAt_of_getElem? hv).1
    have hsucc : (idxSucc idx).val = idx.val + 1 := by
      rw [idxSucc_val]
      omega
    have hrest : w.toList.drop ((idxSucc idx).val - 1) = bs := by
      rw [hsucc, show idx.val + 1 - 1 = (idx.val - 1) + 1 by omega, ← List.tail_drop, hbs]
      rfl
    rw [List.length_cons] at hfuel
    obtain ⟨fuel, rfl⟩ := Nat.exists_eq_add_of_le' (show 2 ≤ fuel by omega)
    by_cases hmark : isMarker c v = true
    · have hescape := Enc.emit_marker c (e := Enc.sending w idx) hpos hv rfl hmark
      have hdata := Enc.emit_escaped c (e := { Enc.sending w idx with encEsc := true }) hpos hv rfl
      have htail := ih (idx := idxSucc idx) (by omega) hrest (show 2 * bs.length + 1 ≤ fuel by omega)
      rw [stuff, if_pos hmark]
      exact emitAll_of_emit rfl hescape (emitAll_of_emit rfl hdata htail)
    · have hplain := Enc.emit_plain c (e := Enc.sending w idx) hpos hv rfl hmark
      have htail := ih (idx := idxSucc idx) (by omega) hrest (show 2 * bs.length + 1 ≤ fuel + 1 by omega)
      rw [stuff, if_neg hmark]
      exact emitAll_of_emit rfl hplain htail

/-- A whole frame takes at most ten emissions, the longest when all four bytes of the body are markers (rule R45). -/
theorem emitAll_frame (w : Body) :
    emitAll c 10 (Enc.sending w 0) = (Enc.sent w,
      (c.START :: stuff c w.toList).map (⟨·, false⟩) ++ [⟨c.END, true⟩]) :=
  emitAll_of_emit rfl (Enc.emit_START c (e := Enc.sending w 0) rfl)
    (emitAll_sending w w.toList (idx := 1) le_rfl rfl le_rfl)

end Emission

theorem dropLast_frameBytes (c : Cfg) (command : BitVec 4) (data : BitVec 18) :
    (frameBytes c command data).dropLast = c.START :: stuff c (bodyOf c command data).toList :=
  List.dropLast_concat

theorem getLast?_frameBytes (c : Cfg) (command : BitVec 4) (data : BitVec 18) :
    (frameBytes c command data).getLast? = some c.END := List.getLast?_concat

/-- Settles O19: an accepted request puts the encoder at position 0 of its body. -/
theorem streamingEqualsFunction : Obligations.StreamingEqualsFunction := by
  intro c wc wd cmd data e _ _
  rw [encodeFrame_ports]
  split_ifs with hrange
  · refine ⟨fun bs hbs => ?_, fun hnone => absurd hnone (by simp)⟩
    obtain rfl := Option.some.inj hbs
    have hemitted := emitAll_frame (c := c) (bodyOf c (cmd.extractLsb' 0 4) (data.extractLsb' 0 18))
    rw [Enc.accept_of_inRange c e hrange, dropLast_frameBytes, getLast?_frameBytes]
    refine ⟨rfl, congrArg Prod.snd hemitted, rfl, congrArg (·.1.encBusy) hemitted, ?_⟩
    exact (congrArg Prod.fst hemitted) ▸ Enc.inv_of_idle rfl rfl rfl
  · exact ⟨fun bs hbs => absurd hbs (by simp), fun _ => Enc.accept_of_outOfRange c e hrange⟩

end Sys2Proof.Machine

/-! O43: the machine's runs of emissions and of `FEED`s, and the loopback (rules R62, R63, R86). -/

namespace Sys2Proof.Machine

theorem trace_cons {i : Instr} {is : List Instr} {s t t' : State} {os : List Outputs} (hstep : exec i s = .next t)
    (hrest : trace is t = some (t', os)) : trace (i :: is) s = some (t', t.out :: os) := by
  simp [trace, hstep, hrest]

/-- A run of emissions is `emitAll`: past the `END` nothing is enabled and nothing is emitted (log entry 8). -/
theorem trace_encEmit (n : Nat) (s : State) :
    ∃ t os, trace (List.replicate n .encEmit) s = some (t, os) ∧ t.dec = s.dec ∧
      t.enc = (emitAll cfg n s.enc).1 ∧ txBytes os = (emitAll cfg n s.enc).2 := by
  induction n generalizing s with
  | zero => exact ⟨s, [], rfl, rfl, rfl, rfl⟩
  | succ n ih =>
    cases hbusy : s.enc.encBusy with
    | true =>
      have hstep := exec_encEmit_of_busy hbusy
      obtain ⟨t, os, hrun, hdec, henc, htx⟩ := ih { s with enc := (s.enc.emit cfg).1,
                                                           out := Outputs.ofTx (s.enc.emit cfg).2 }
      rw [emitAll_of_emit hbusy rfl rfl]
      exact ⟨t, _, trace_cons hstep hrun, hdec, henc, congrArg ((s.enc.emit cfg).2 :: ·) htx⟩
    | false =>
      have hstep := exec_encEmit_of_idle hbusy
      obtain ⟨t, os, hrun, hdec, henc, htx⟩ := ih s.quiet
      rw [State.quiet_enc, emitAll_of_idle hbusy] at henc htx
      rw [emitAll_of_idle hbusy]
      exact ⟨t, _, trace_cons hstep hrun, hdec, henc, htx⟩

section Streams

variable {c : Cfg} {cw tw : Nat}

theorem decodeStream_cons_ok {d d' : Dec cw} {b : Byte} {now : BitVec tw} {xs : List (Byte × BitVec tw)}
    {es : List (Event tw)} (h : decodeStream c d ((b, now) :: xs) = .ok (d', es)) :
    ∃ d₁ e es', d.feed c b now = .ok (d₁, e) ∧ decodeStream c d₁ xs = .ok (d', es') ∧ es = e.toList ++ es' := by
  rcases hfeed : d.feed c b now with f | ⟨d₁, e⟩
  · simp [decodeStream, hfeed] at h
  rcases hrest : decodeStream c d₁ xs with f | ⟨d₂, es'⟩
  · simp [decodeStream, hfeed, hrest] at h
  obtain ⟨rfl, rfl⟩ : d₂ = d' ∧ e.toList ++ es' = es := by simpa [decodeStream, hfeed, hrest] using h
  exact ⟨d₁, e, es', rfl, hrest, rfl⟩

/-- A stream that reports no error counts none (rule R18). -/
theorem decodeStream_counters {d d' : Dec cw} {xs : List (Byte × BitVec tw)} {es : List (Event tw)}
    (h : decodeStream c d xs = .ok (d', es)) (hfe : .framingError ∉ es) (hce : .checksumError ∉ es) :
    d'.feCnt = d.feCnt ∧ d'.ceCnt = d.ceCnt := by
  induction xs generalizing d es with
  | nil =>
    cases h
    exact ⟨rfl, rfl⟩
  | cons x xs ih =>
    obtain ⟨b, now⟩ := x
    obtain ⟨d₁, e, es', hfeed, hrest, rfl⟩ := decodeStream_cons_ok h
    rw [List.mem_append, not_or] at hfe hce
    have hfe₁ : e ≠ .framingError := by
      rintro rfl
      exact hfe.1 (List.mem_singleton.mpr rfl)
    have hce₁ : e ≠ .checksumError := by
      rintro rfl
      exact hce.1 (List.mem_singleton.mpr rfl)
    have hcount := (Dec.feed_ok hfeed).1.counters
    rw [if_neg hfe₁, if_neg hce₁] at hcount
    obtain ⟨hfe', hce'⟩ := ih hrest hfe.2 hce.2
    exact ⟨hfe'.trans hcount.1, hce'.trans hcount.2⟩

/-- One whole frame with a known time of its `END`, from any state (rule R86): its Frame, and no counter moved. -/
theorem decodeStream_frame (hwf : c.WF) (d : Dec cw) {command : BitVec 4} {data : BitVec 18}
    {xs : List (Byte × BitVec tw)} (hxs : xs.map Prod.fst = c.START :: stuff c (bodyOf c command data).toList)
    (last : BitVec tw) :
    ∃ d', decodeStream c d (xs ++ [(c.END, last)]) = .ok (d', [.frame ⟨command, data, some last⟩]) ∧
      d'.decState = .idle ∧ d'.feCnt = d.feCnt ∧ d'.ceCnt = d.ceCnt := by
  obtain ⟨d₁, hbody, hrel⟩ := decodeStream_start_stuff hwf d _ hxs
  obtain ⟨d', hend, hidle, -⟩ := decodeStream_end_of_rel hwf hrel last
  have hall := decodeStream_append hbody hend
  exact ⟨d', hall, hidle, decodeStream_counters hall (by simp) (by simp)⟩

end Streams

/-- A run of `FEED`s is `decodeStream` on the decoder. -/
theorem trace_feed {xs : List (Byte × BitVec Config.TS_W)} {s : State} {d : Dec Config.CNT_W}
    {es : List (Event Config.TS_W)} (h : decodeStream cfg s.dec xs = .ok (d, es)) :
    ∃ t os, trace (xs.map fun x => .feed x.1 x.2) s = some (t, os) ∧ t.enc = s.enc ∧ t.dec = d ∧ events os = es := by
  induction xs generalizing s d es with
  | nil =>
    cases h
    exact ⟨s, [], rfl, rfl, rfl, rfl⟩
  | cons x xs ih =>
    obtain ⟨b, now⟩ := x
    obtain ⟨d₁, e, es', hfeed, hrest, rfl⟩ := decodeStream_cons_ok h
    have hstep : exec (.feed b now) s = .next (s.withDec d₁ e) :=
      (execFeed_eq b now s).trans (State.runDec_next.mpr ⟨d₁, e, hfeed, rfl⟩)
    obtain ⟨t, os, hrun, henc, hdec, hev⟩ := ih (s := s.withDec d₁ e) hrest
    exact ⟨t, _, trace_cons hstep hrun, henc, hdec, congrArg (e.toList ++ ·) hev⟩

/-- Settles O43: the run on TX is the frame, and the run on RX is its decoding. -/
theorem loopbackDeliversTheFrame : Obligations.LoopbackDeliversTheFrame := by
  intro cmd data now s hbusy hesc hcmd hdata
  have haccept := exec_encAccept_inRange hbusy hesc ⟨hcmd, hdata⟩
  obtain ⟨s₁, os₁, hrun₁, hdec₁, henc₁, htx⟩ := trace_encEmit 10 { s with
    enc := Enc.sending (bodyOf cfg (cmd.extractLsb' 0 4) (data.extractLsb' 0 18)) 0, out := Outputs.ofRsp .ok }
  rw [emitAll_frame] at henc₁ htx
  have hfst : ∀ bs : List Byte, (bs.map (·, now)).map Prod.fst = bs := by simp [Function.comp_def]
  obtain ⟨d, hstream, hidle, hfe, hce⟩ := decodeStream_frame cfg_wf s₁.dec (hfst _) now
  obtain ⟨s₂, os₂, hrun₂, henc₂, rfl, hevents⟩ := trace_feed hstream
  refine ⟨s₁, _, s₂, os₂, trace_cons haccept hrun₁, hdec₁, ?_, hevents, ⟨?_, hidle⟩, hdec₁ ▸ hfe, hdec₁ ▸ hce⟩
  · have htx' : txBytes (Outputs.ofRsp .ok :: os₁) = _ := htx
    rw [List.map_append, List.map_map] at hrun₂
    rw [htx', List.map_append, List.map_map]
    exact hrun₂
  · rw [henc₂, henc₁]
    rfl

end Sys2Proof.Machine

/-! O37, O39: a frame at the decoder, from any state and after any garbage (rules R85 to R87, C4). -/

namespace Sys2Proof.Machine

section Streams

variable {c : Cfg} {cw tw : Nat}

theorem DecError.event_ne_none (x : DecError) : (x.event : Event tw) ≠ .none := by
  cases x <;> simp [DecError.event]

/-- A close always ends in `IDLE` at length 0 and reports (rule R75). -/
theorem Dec.close_outcome {now : BitVec tw} {d d' : Dec cw} {e : Event tw} (h : d.close c now = .ok (d', e)) :
    d'.decState = .idle ∧ d'.decLen.val = 0 ∧ e ≠ .none := by
  rcases Dec.close_cases c now d with ⟨-, h'⟩ | ⟨-, w, -, -, h'⟩ | ⟨-, w, -, -, h'⟩ | ⟨-, i, -, -, h'⟩ <;>
    cases h.symm.trans h'
  · exact ⟨rfl, rfl, DecError.event_ne_none .framing⟩
  · exact ⟨rfl, rfl, DecError.event_ne_none .checksum⟩
  · exact ⟨rfl, rfl, by simp⟩

/-- Only a close reports (rule R85). -/
theorem Dec.feed_event_ne_none_iff {b : Byte} {now : BitVec tw} {d d' : Dec cw} {e : Event tw}
    (h : d.feed c b now = .ok (d', e)) :
    e ≠ .none ↔ classify c b = .endMarker ∧ d.decState = .accumulating := by
  rcases Dec.feed_cases c b now d with ⟨hb, h'⟩ | ⟨-, hst, h'⟩ | ⟨hb, hst, h'⟩ | ⟨hb, -, h'⟩ | ⟨hb, -, h'⟩ |
    ⟨-, hst, h'⟩ <;> rw [h'] at h
  · cases h; simp [hb]
  · cases h; simp [hst]
  · simp [hb, hst, (Dec.close_outcome h).2.2]
  · cases h; simp [hb]
  · obtain ⟨-, rfl⟩ := noEvent_ok.mp h; simp [hb]
  · obtain ⟨-, rfl⟩ := noEvent_ok.mp h; simp [hst]

/-- A stream without `END` reports nothing. -/
theorem decodeStream_events_of_no_END {d d' : Dec cw} {xs : List (Byte × BitVec tw)} {es : List (Event tw)}
    (h : decodeStream c d xs = .ok (d', es)) (hxs : ∀ x ∈ xs, x.1 ≠ c.END) : es = [] := by
  induction xs generalizing d es with
  | nil =>
    cases h
    rfl
  | cons x xs ih =>
    obtain ⟨b, now⟩ := x
    obtain ⟨hb, hxs⟩ := List.forall_mem_cons.mp hxs
    obtain ⟨d₁, e, es', hfeed, hrest, rfl⟩ := decodeStream_cons_ok h
    have he : e = .none := by
      by_contra hne
      exact hb (eq_END_of_classify ((Dec.feed_event_ne_none_iff hfeed).mp hne).1)
    rw [he, ih hrest hxs]
    rfl

/-- A frame with its times: the last byte is the `END`, what comes before it is `START` and the stuffed body. -/
theorem zip_frameBytes {command : BitVec 4} {data : BitVec 18} {nows : List (BitVec tw)} (last : BitVec tw)
    (hlen : (frameBytes c command data).length = nows.length + 1) :
    (frameBytes c command data).zip (nows ++ [last]) =
        (frameBytes c command data).dropLast.zip nows ++ [(c.END, last)] ∧
      ((frameBytes c command data).dropLast.zip nows).map Prod.fst =
        c.START :: stuff c (bodyOf c command data).toList := by
  have hsplit : frameBytes c command data = (frameBytes c command data).dropLast ++ [c.END] := by
    rw [dropLast_frameBytes]
    rfl
  have hdrop : (frameBytes c command data).dropLast.length = nows.length := by
    rw [List.length_dropLast, hlen]
    rfl
  constructor
  · conv_lhs => rw [hsplit, List.zip_append hdrop]
    rfl
  · rw [List.map_fst_zip hdrop.le, dropLast_frameBytes]

end Streams

/-- Settles O37: the buffer holds the body before the `END`, and closing on it gives the Frame. -/
theorem roundTripLaw : Obligations.RoundTripLaw := by
  intro c cw tw command data d nows last hwf hlen
  obtain ⟨hzip, hbytes⟩ := zip_frameBytes last hlen
  obtain ⟨d₁, hbody, hrel⟩ := decodeStream_start_stuff hwf d _ hbytes
  obtain ⟨d₂, hend, hidle, hlen₂, -⟩ := decodeStream_end_of_rel hwf hrel last
  have hall := decodeStream_append hbody hend
  obtain ⟨hfe, hce⟩ := decodeStream_counters hall (by simp) (by simp)
  exact ⟨d₁, d₂, hbody, hzip ▸ hall, hidle, hlen₂, hfe, hce⟩

/-- Settles O39: the frame decodes from whatever state the garbage leaves; garbage without `START` is dropped in `IDLE`,
garbage without `END` closes nothing. -/
theorem garbagePrefixRecovers : Obligations.GarbagePrefixRecovers := by
  intro c cw tw g command data nows last hwf hlen
  obtain ⟨hzip, hbytes⟩ := zip_frameBytes last hlen
  obtain ⟨dg, hgarbage, -⟩ := boundedEqualsGrowable c cw tw g
  obtain ⟨d', hframe, hidle, -⟩ := decodeStream_frame hwf dg hbytes last
  refine ⟨dg, d', _, hgarbage, hzip ▸ decodeStream_append hgarbage hframe, hidle, ?_⟩
  rintro (hstart | hend)
  · have hdropped := decodeStream_idle (d := Dec.reset cw) rfl hstart
    exact (Prod.mk.inj (Except.ok.inj (hgarbage.symm.trans hdropped))).2
  · exact decodeStream_events_of_no_END hgarbage hend

end Sys2Proof.Machine

/-! O22 to O27: the rows of `FEED`, each where it is selected (rules R71 to R80). -/

namespace Sys2Proof.Machine

/-- `APPEND`'s writes in the machine (rule R81): the decoder alone, and no event. -/
theorem runDec_append (v : Byte) (s : State) :
    ∃ d', s.runDec (noEvent (s.dec.append v)) = .next (s.withDec d' .none) ∧ d'.decState = s.dec.decState ∧
      s.dec.appended v d' := by
  obtain ⟨d', happend, hst, happ, -⟩ := Dec.append_spec v s.dec
  exact ⟨d', by rw [happend]; rfl, hst, happ⟩

/-- The destuffer's writes in the machine (rules R78 to R80). -/
theorem runDec_destuff (b : Byte) (s : State) :
    ∃ d', s.runDec (noEvent (s.dec.destuff cfg b)) = .next (s.withDec d' .none) ∧ d'.decState = .accumulating ∧
      s.dec.appended (b ^^^ cfg.MASK) d' := by
  obtain ⟨d', hdestuff, hst, happ, -⟩ := Dec.destuff_spec cfg b s.dec
  exact ⟨d', by rw [hdestuff]; rfl, hst, happ⟩

/-- A row for a literal is selected by its `dec_state`. -/
theorem runCase_literal {s : State} {st : DecState} {b : Byte}
    {r : Except Fault (Dec Config.CNT_W × Event Config.TS_W)} (hst : s.dec.decState = st)
    (hb : b ∉ [0x7E#8, 0x7F#8, 0x7D#8]) : s.runCase (s.decIn st && isLiteral b) r = s.runDec r :=
  State.runCase_of_selected ((Bool.and_eq_true _ _).mpr ⟨decIn_iff.mpr hst, (isLiteral_iff b).mpr hb⟩)

/-- Settles O22. -/
theorem feedStartOpensAFrame : Obligations.FeedStartOpensAFrame := fun _ => rfl

/-- Settles O23: each of the three rows is selected and gives back the decoder as it is. -/
theorem feedIdleDrops : Obligations.FeedIdleDrops := fun _ hst =>
  ⟨State.runCase_of_selected (decIn_iff.mpr hst), State.runCase_of_selected (decIn_iff.mpr hst),
    fun _ hb => runCase_literal hst hb⟩

/-- Settles O24. -/
theorem feedEscEscapes : Obligations.FeedEscEscapes := fun _ hst => State.runCase_of_selected (decIn_iff.mpr hst)

/-- Settles O25: the row is selected and appends. -/
theorem feedLiteralAppends : Obligations.FeedLiteralAppends := by
  intro b s hst hb
  obtain ⟨d', hrun, hst', happ⟩ := runDec_append b s
  exact ⟨d', (runCase_literal hst hb).trans hrun, hst'.trans hst, happ⟩

/-- Settles O26: each of the three rows is selected and destuffs. -/
theorem feedEscapedDestuffs : Obligations.FeedEscapedDestuffs := by
  intro s hst
  have hsel := decIn_iff.mpr hst
  obtain ⟨dEnd, hEnd, hEnd'⟩ := runDec_destuff cfg.END s
  obtain ⟨dEsc, hEsc, hEsc'⟩ := runDec_destuff cfg.ESC s
  refine ⟨⟨dEnd, (State.runCase_of_selected hsel).trans hEnd, hEnd'⟩,
    ⟨dEsc, (State.runCase_of_selected hsel).trans hEsc, hEsc'⟩, fun b hb => ?_⟩
  obtain ⟨d', hrun, hd'⟩ := runDec_destuff b s
  exact ⟨d', (runCase_literal hst hb).trans hrun, hd'⟩

theorem exec_feedEndAcc (now : BitVec 64) {s : State} (hst : s.dec.decState = .accumulating) :
    exec (.feedEndAcc now) s = s.runDec (s.dec.close cfg now) := State.runCase_of_selected (decIn_iff.mpr hst)

/-- The length is tested first: `BUF` is not read where it fails (rules R82, R112). -/
theorem Dec.close_of_decLen_ne {cw tw : Nat} (c : Cfg) (now : BitVec tw) {d : Dec cw} (hlen : d.decLen.val ≠ 4) :
    d.close c now = .ok (d.takeError .framing) := if_pos ((lenFails_iff _).mpr hlen)

/-- Settles O27, outcome by outcome. -/
theorem feedEndCloses : Obligations.FeedEndCloses := by
  intro now s hst
  refine ⟨fun hlen => ⟨_, satInc_toNat s.dec.feCnt, ?_⟩, fun b0 b1 b2 ck hlen hholds =>
    ⟨fun hck => ⟨_, satInc_toNat s.dec.ceCnt, ?_⟩, fun hck => ?_⟩⟩
  · rw [exec_feedEndAcc now hst, Dec.close_of_decLen_ne cfg now hlen]
    rfl
  · rw [exec_feedEndAcc now hst, Dec.close_of_holds cfg now _ _ _ _ _ hlen hholds, if_neg hck]
    rfl
  · rw [exec_feedEndAcc_of_checks now s hst hlen hholds hck, unpackFrame_eq]
    rfl

end Sys2Proof.Machine

/-! O28 to O31: the decoder's stages standing alone (rules R81 to R84, log entry 6). -/

namespace Sys2Proof.Machine

/-- Settles O28. -/
theorem appendStoresAtLength : Obligations.AppendStoresAtLength := runDec_append

/-- Settles O29, by the length test. -/
theorem closeLenTestsLength : Obligations.CloseLenTestsLength := fun s =>
  ⟨fun hlen => ⟨_, satInc_toNat s.dec.feCnt, if_pos ((lenFails_iff _).mpr hlen)⟩,
    fun hlen => if_neg fun hfails => (lenFails_iff _).mp hfails hlen⟩

section Checked

variable {s : State} {b0 b1 b2 ck : Byte}

/-- `CLOSE.CK` at length 4, on the four bytes that `BUF` holds (rule R83). -/
theorem exec_closeCk_of_holds (hlen : s.dec.decLen.val = 4) (hholds : s.dec.holds b0 b1 b2 ck) :
    exec .closeCk s = if crc8 b0 b1 b2 = ck then .next (s.giveStage .passed)
      else s.runDec (.ok (s.dec.raise .checksum)) := by
  obtain ⟨h0, h1, h2, h3⟩ := hholds
  change execCloseCk s = _
  rw [execCloseCk, Memory.loadBody_of_lookup _ _ _ _ _ h0 h1 h2 h3]
  by_cases hck : crc8 b0 b1 b2 = ck <;> simp [lenFails_iff, hlen, ckFails, cksum, hck]

/-- `UNPACK` of a body that passes the check (rule R84). -/
theorem exec_unpack_of_checks (hlen : s.dec.decLen.val = 4) (hholds : s.dec.holds b0 b1 b2 ck)
    (hck : crc8 b0 b1 b2 = ck) (now : BitVec Config.TS_W) :
    exec (.unpack now) s = .next (s.withDec s.dec (.frame (unpackFrame ⟨b0, b1, b2, ck⟩ now))) := by
  obtain ⟨h0, h1, h2, h3⟩ := hholds
  change execUnpack now s = _
  rw [execUnpack, Memory.loadBody_of_lookup _ _ _ _ _ h0 h1 h2 h3]
  simp [lenFails_iff, hlen, ckFails, cksum, hck, State.runDec, State.withDec]

end Checked

/-- Settles O30, by the checksum test. -/
theorem closeCkTestsChecksum : Obligations.CloseCkTestsChecksum := by
  intro s b0 b1 b2 ck hlen hholds
  rw [exec_closeCk_of_holds hlen hholds]
  exact ⟨fun hck => ⟨_, satInc_toNat s.dec.ceCnt, if_neg hck⟩, fun hck => if_pos hck⟩

/-- Settles O31: the Frame is read off the bytes. -/
theorem unpackEmitsTheFrame : Obligations.UnpackEmitsTheFrame := by
  intro now s b0 b1 b2 ck hlen hholds hck
  rw [exec_unpack_of_checks hlen hholds hck, unpackFrame_eq]
  rfl

end Sys2Proof.Machine

/-! O21, O34: `FEED` by class and state (rules R70, R85, R90, R133). -/

namespace Sys2Proof.Machine

section Table

variable {c : Cfg} {cw tw : Nat} {d : Dec cw}

theorem Dec.feed_END_of_accumulating (hwf : c.WF) (hst : d.decState = .accumulating) (now : BitVec tw) :
    d.feed c c.END now = d.close c now := by
  rw [Dec.feed, classify_END hwf, hst]

theorem Dec.feed_ESC_of_accumulating (hwf : c.WF) (hst : d.decState = .accumulating) (now : BitVec tw) :
    d.feed c c.ESC now = .ok (d.escape, .none) := by
  rw [Dec.feed, classify_ESC hwf, hst]

theorem Dec.feed_literal_of_accumulating (hst : d.decState = .accumulating) {b : Byte} (hb : b ∉ c.markers)
    (now : BitVec tw) :
    ∃ d', d.feed c b now = .ok (d', .none) ∧ d'.decState = .accumulating ∧ d.appended b d' := by
  obtain ⟨d', happend, hst', happ, -⟩ := Dec.append_spec b d
  refine ⟨d', ?_, hst'.trans hst, happ⟩
  rw [Dec.feed, (classify_literal_iff c b).mpr hb, hst, happend]
  rfl

theorem Dec.feed_of_escaped (hst : d.decState = .escaped) {b : Byte} (hb : b ≠ c.START) (now : BitVec tw) :
    ∃ d', d.feed c b now = .ok (d', .none) ∧ d'.decState = .accumulating ∧ d.appended (b ^^^ c.MASK) d' := by
  obtain ⟨d', hdestuff, hst', happ, -⟩ := Dec.destuff_spec c b d
  have hclass := classify_ne_startMarker hb
  refine ⟨d', ?_, hst', happ⟩
  rw [Dec.feed, hst, hdestuff]
  cases hc : classify c b with
  | startMarker => exact absurd hc hclass
  | endMarker | escMarker | literal => rfl

/-- With the storage invariant every byte is taken (rules R53, R90). -/
theorem Dec.BufInv.feed_completes (h : d.BufInv) (c : Cfg) (b : Byte) (now : BitVec tw) :
    ∃ d' e, d.feed c b now = .ok (d', e) := by
  rcases hfeed : d.feed c b now with f | ⟨d', e⟩
  · exact absurd (Dec.feed_error hfeed) (h.not_lacks f)
  · exact ⟨d', e, rfl⟩

end Table

/-- Settles O21: `FEED` is the decoder's step alone, and each line of the table is the step for one class and state. -/
theorem feedFollowsTheTable : Obligations.FeedFollowsTheTable := by
  intro b now s hinv
  obtain ⟨d, e, hfeed⟩ := hinv.1.feed_completes cfg b now
  refine ⟨s.withDec d e, (execFeed_eq b now s).trans (State.runDec_next.mpr ⟨d, e, hfeed, rfl⟩), rfl, rfl, rfl, rfl,
    rfl, rfl, rfl, ?start, fun hb hst => ?idle, ?close, ?escape, fun hb hst => ?literal, fun hb hst => ?escaped⟩
  case start =>
    rintro rfl
    cases hfeed.symm.trans (Dec.feed_START s.dec now)
    exact ⟨rfl, rfl, rfl⟩
  case idle =>
    cases hfeed.symm.trans (Dec.feed_of_idle hst hb now)
    exact ⟨rfl, rfl⟩
  case close =>
    rintro rfl hst
    exact Dec.close_outcome ((Dec.feed_END_of_accumulating cfg_wf hst now).symm.trans hfeed)
  case escape =>
    rintro rfl hst
    cases hfeed.symm.trans (Dec.feed_ESC_of_accumulating cfg_wf hst now)
    exact ⟨rfl, rfl⟩
  case literal =>
    obtain ⟨d', hfeed', hst', happ⟩ := Dec.feed_literal_of_accumulating (c := cfg) hst hb now
    cases hfeed.symm.trans hfeed'
    exact ⟨hst', happ, rfl⟩
  case escaped =>
    obtain ⟨d', hfeed', hst', happ⟩ := Dec.feed_of_escaped (c := cfg) hst hb now
    cases hfeed.symm.trans hfeed'
    exact ⟨hst', happ, rfl⟩

/-- Settles O34: the event on the port is the decoder's, and only a close gives one. -/
theorem eventsComeFromCloses : Obligations.EventsComeFromCloses := by
  intro b now s t h
  obtain ⟨d, e, hfeed, rfl⟩ := State.runDec_next.mp ((execFeed_eq b now s).symm.trans h)
  have hclass : classify cfg b = .endMarker ↔ b = 0x7F#8 :=
    ⟨eq_END_of_classify, fun hb => hb ▸ classify_cfg_END⟩
  exact (Dec.feed_event_ne_none_iff hfeed).trans (and_congr_left' hclass)

end Sys2Proof.Machine

/-! O38: what follows a `START` does not depend on what came before it (rule R87(a)). -/

namespace Sys2Proof.Machine

section Streams

variable {c : Cfg} {cw tw : Nat}

theorem decodeStream_START (d : Dec cw) (now : BitVec tw) (xs : List (Byte × BitVec tw)) :
    decodeStream c d ((c.START, now) :: xs) = decodeStream c d.start xs := by
  rcases h : decodeStream c d.start xs with f | ⟨d', es⟩ <;> simp [decodeStream, Dec.feed_START, h, Event.toList]

/-- One event counts in its own counter alone (rule R18). -/
theorem iterate_satInc_count_toList (e : Event tw) (n : BitVec cw) :
    satInc^[e.toList.count .framingError] n = (if e = .framingError then satInc n else n) ∧
    satInc^[e.toList.count .checksumError] n = (if e = .checksumError then satInc n else n) := by
  cases e <;> simp [Event.toList]

/-- The counters after a stream are those before it, stepped once for each of their events (rule R18). -/
theorem decodeStream_counts {d d' : Dec cw} {xs : List (Byte × BitVec tw)} {es : List (Event tw)}
    (h : decodeStream c d xs = .ok (d', es)) :
    d'.feCnt = satInc^[es.count .framingError] d.feCnt ∧ d'.ceCnt = satInc^[es.count .checksumError] d.ceCnt := by
  induction xs generalizing d es with
  | nil =>
    cases h
    exact ⟨rfl, rfl⟩
  | cons x xs ih =>
    obtain ⟨b, now⟩ := x
    obtain ⟨d₁, e, es', hfeed, hrest, rfl⟩ := decodeStream_cons_ok h
    obtain ⟨hfe, hce⟩ := (Dec.feed_ok hfeed).1.counters
    obtain ⟨hfe', hce'⟩ := ih hrest
    rw [← (iterate_satInc_count_toList e d.feCnt).1] at hfe
    rw [← (iterate_satInc_count_toList e d.ceCnt).2] at hce
    simp only [List.count_append, Nat.add_comm (List.count _ e.toList), Function.iterate_add_apply]
    exact ⟨hfe ▸ hfe', hce ▸ hce'⟩

end Streams

/-- Settles O38: both decoders follow the growable one from an empty buffer on, so they give its events, and equal
events count equally. -/
theorem startForgetsThePast : Obligations.StartForgetsThePast := by
  intro c cw tw d₁ d₂ now xs
  obtain ⟨d₁', h₁, hst₁, hlen₁, hbuf₁⟩ := (UDec.rel_empty d₁.start .accumulating rfl rfl).stream c xs
  obtain ⟨d₂', h₂, hst₂, hlen₂, hbuf₂⟩ := (UDec.rel_empty d₂.start .accumulating rfl rfl).stream c xs
  obtain ⟨hfe₁, hce₁⟩ := decodeStream_counts h₁
  obtain ⟨hfe₂, hce₂⟩ := decodeStream_counts h₂
  refine ⟨d₁', d₂', _, (decodeStream_START d₁ now xs).trans h₁, (decodeStream_START d₂ now xs).trans h₂,
    hst₁.trans hst₂.symm, Fin.ext (hlen₁.trans hlen₂.symm), fun i hi h4 => ?_, fun hfe => ?_, fun hce => ?_⟩
  · have hi' := lt_min (lt_of_lt_of_le hi (hlen₁.trans_le (min_le_left _ _))) h4
    rw [hbuf₁ i hi', hbuf₂ i hi']
  · rw [hfe₁, hfe₂, Dec.start_feCnt, Dec.start_feCnt, hfe]
  · rw [hce₁, hce₂, Dec.start_ceCnt, Dec.start_ceCnt, hce]

end Sys2Proof.Machine

/-! O44: the control states of the decoder (rules R19(d), R90). -/

namespace Sys2Proof.Machine

theorem Dec.Inv.stream {c : Cfg} {cw tw : Nat} {d d' : Dec cw} {xs : List (Byte × BitVec tw)} {es : List (Event tw)}
    (h : d.Inv) (hs : decodeStream c d xs = .ok (d', es)) : d'.Inv := by
  induction xs generalizing d es with
  | nil =>
    cases hs
    exact h
  | cons x xs ih =>
    obtain ⟨b, now⟩ := x
    obtain ⟨d₁, e, es', hfeed, hrest, -⟩ := decodeStream_cons_ok hs
    exact ih (h.feed hfeed) hrest

/-- `START` and `n` bytes leave the decoder accumulating at length `n`. -/
theorem exists_stream_accumulating (n : Fin 6) : ∃ (xs : List (Byte × BitVec 64)) (d : Dec 32),
    decodeStream cfg (Dec.reset 32) xs = .ok (d, []) ∧ d.decState = .accumulating ∧ d.decLen = n := by
  have hfst : ∀ bs : List Byte, (bs.map (·, 0#64)).map Prod.fst = bs := by simp [Function.comp_def]
  obtain ⟨d, hstream, hst, hlen, -⟩ :=
    decodeStream_start_stuff cfg_wf (Dec.reset 32) (List.replicate n.val 0#8) (hfst _)
  refine ⟨_, d, hstream, hst, Fin.ext ?_⟩
  rw [hlen, List.length_replicate]
  exact min_eq_left (Nat.le_of_lt_succ n.isLt)

/-- Settles O44: `n` bytes after a `START`, with an `ESC` behind them or not; that `IDLE` has length 0 is R19(d). -/
theorem thirteenControlStates : Obligations.ThirteenControlStates := by
  refine ⟨fun st n hn => ?_, fun xs d es hs hidle => ?_⟩
  · obtain ⟨xs, d, hstream, hst, hlen⟩ := exists_stream_accumulating n
    cases st with
    | idle =>
      obtain rfl := hn rfl
      exact ⟨[], Dec.reset 32, [], rfl, rfl, rfl⟩
    | accumulating => exact ⟨xs, d, [], hstream, hst, hlen⟩
    | escaped =>
      have hesc : decodeStream cfg d [(cfg.ESC, 0#64)] = .ok (d.escape, []) := by
        simp [decodeStream, Dec.feed_ESC_of_accumulating cfg_wf hst, Event.toList]
      exact ⟨_, d.escape, _, decodeStream_append hstream hesc, rfl, hlen⟩
  · exact Fin.ext (((Dec.reset_inv 32).stream hs).2 hidle)

end Sys2Proof.Machine

/-! Where a byte of a stuffed sequence comes from (rule R58). -/

namespace Sys2Proof.Machine

section Position

variable {c : Cfg}

theorem stuff_append (c : Cfg) (as bs : List Byte) : stuff c (as ++ bs) = stuff c as ++ stuff c bs := by
  simp only [stuff_eq_flatMap, List.flatMap_append]

theorem stuff_singleton_marker {w : Byte} (hw : isMarker c w = true) : stuff c [w] = [c.ESC, xform c w] := if_pos hw

theorem stuff_singleton_plain {w : Byte} (hw : ¬ isMarker c w = true) : stuff c [w] = [w] := if_neg hw

/-- Each byte of the stuffed sequence stands in what one byte `w` is stuffed to. -/
theorem exists_stuffed_byte {bs : List Byte} {i : Nat} {v : Byte} (h : (stuff c bs)[i]? = some v) :
    ∃ pre w post j, bs = pre ++ w :: post ∧ (stuff c [w])[j]? = some v ∧
      ∀ x, (stuff c bs).set i x = stuff c pre ++ ((stuff c [w]).set j x ++ stuff c post) := by
  induction bs generalizing i with
  | nil => simp [stuff] at h
  | cons b bs ih =>
    rw [← List.singleton_append, stuff_append] at h ⊢
    rcases Nat.lt_or_ge i (stuff c [b]).length with hi | hi
    · rw [List.getElem?_append_left hi] at h
      exact ⟨[], b, bs, i, rfl, h, fun x => List.set_append_left i x hi⟩
    · rw [List.getElem?_append_right hi] at h
      obtain ⟨pre, w, post, j, rfl, hj, hset⟩ := ih h
      refine ⟨b :: pre, w, post, j, rfl, hj, fun x => ?_⟩
      rw [List.set_append_right i x hi, hset, ← List.append_assoc, ← stuff_append, List.singleton_append]

/-- The three kinds of byte in a stuffed sequence, each with what the sequence is when another byte stands there. -/
inductive StuffedAt (c : Cfg) (bs : List Byte) (i : Nat) (v : Byte) : Prop
  | plain (pre post : List Byte) (hbs : bs = pre ++ v :: post) (hv : ¬ isMarker c v = true)
      (hset : ∀ x, (stuff c bs).set i x = stuff c pre ++ ([x] ++ stuff c post))
  | escape (pre : List Byte) (w : Byte) (post : List Byte) (hbs : bs = pre ++ w :: post) (hw : isMarker c w = true)
      (hv : v = c.ESC) (hset : ∀ x, (stuff c bs).set i x = stuff c pre ++ ([x, xform c w] ++ stuff c post))
  | data (pre : List Byte) (w : Byte) (post : List Byte) (hbs : bs = pre ++ w :: post) (hw : isMarker c w = true)
      (hv : v = xform c w) (hset : ∀ x, (stuff c bs).set i x = stuff c pre ++ ([c.ESC, x] ++ stuff c post))

theorem stuffedAt_of_getElem? {bs : List Byte} {i : Nat} {v : Byte} (h : (stuff c bs)[i]? = some v) :
    StuffedAt c bs i v := by
  obtain ⟨pre, w, post, j, hbs, hj, hset⟩ := exists_stuffed_byte h
  by_cases hw : isMarker c w = true
  · rw [stuff_singleton_marker hw] at hj hset
    match j with
    | 0 => exact .escape pre w post hbs hw (Option.some.inj hj).symm hset
    | 1 => exact .data pre w post hbs hw (Option.some.inj hj).symm hset
    | j + 2 => simp at hj
  · rw [stuff_singleton_plain hw] at hj hset
    match j with
    | 0 =>
      obtain rfl := Option.some.inj hj
      exact .plain pre post hbs hw hset
    | j + 1 => simp at hj

theorem length_delimit (c : Cfg) (sb : List Byte) : (delimit c sb).length = sb.length + 2 := by
  simp [delimit]

/-- The three places in a delimited sequence, each with what the sequence is when another byte stands there. -/
theorem delimit_set_cases {sb : List Byte} {i : Nat} {v : Byte} (h : (delimit c sb)[i]? = some v) :
    (i = 0 ∧ v = c.START ∧ ∀ x, (delimit c sb).set i x = x :: (sb ++ [c.END])) ∨
    (∃ j, i = j + 1 ∧ sb[j]? = some v ∧ ∀ x, (delimit c sb).set i x = delimit c (sb.set j x)) ∨
    (i = sb.length + 1 ∧ v = c.END ∧ ∀ x, (delimit c sb).set i x = c.START :: (sb ++ [x])) := by
  have hdelimit : delimit c sb = c.START :: (sb ++ [c.END]) := rfl
  rw [hdelimit] at h ⊢
  match i with
  | 0 => exact .inl ⟨rfl, (Option.some.inj h).symm, fun _ => rfl⟩
  | j + 1 =>
    rw [List.getElem?_cons_succ] at h
    rcases Nat.lt_or_ge j sb.length with hj | hj
    · rw [List.getElem?_append_left hj] at h
      refine .inr (.inl ⟨j, rfl, h, fun x => ?_⟩)
      rw [List.set_cons_succ, List.set_append_left j x hj]
      rfl
    · rw [List.getElem?_append_right hj] at h
      obtain ⟨hlt, hv⟩ := List.getElem?_eq_some_iff.mp h
      obtain rfl : j = sb.length := by
        rw [List.length_singleton] at hlt
        omega
      refine .inr (.inr ⟨rfl, by simpa using hv.symm, fun x => ?_⟩)
      rw [List.set_cons_succ, List.set_append_right _ _ le_rfl, Nat.sub_self]
      rfl

end Position

end Sys2Proof.Machine

/-! Runs of the decoder that report errors only, on bytes with whatever times (rules R17, R89). -/

namespace Sys2Proof.Machine

/-- On these bytes, at all times, the growable decoder goes from `u` to `u'` and reports exactly these errors. -/
def UDec.Runs (c : Cfg) (u : UDec) (bs : List Byte) (u' : UDec) (errs : List DecError) : Prop :=
  ∀ (tw : Nat) (xs : List (Byte × BitVec tw)), xs.map Prod.fst = bs →
    UDec.stream c u xs = (u', errs.map DecError.event)

/-- While accumulating, these bytes append `body` to the buffer, without an event. -/
def UDec.Fills (c : Cfg) (bs body : List Byte) : Prop :=
  ∀ ubuf, UDec.Runs c ⟨.accumulating, ubuf⟩ bs ⟨.accumulating, ubuf ++ body⟩ []

section Runs

variable {c : Cfg} {u u₁ u₂ : UDec} {as bs : List Byte} {b : Byte}

theorem UDec.stream_append {tw : Nat} (c : Cfg) (u : UDec) (xs ys : List (Byte × BitVec tw)) :
    UDec.stream c u (xs ++ ys) =
      ((UDec.stream c (UDec.stream c u xs).1 ys).1,
        (UDec.stream c u xs).2 ++ (UDec.stream c (UDec.stream c u xs).1 ys).2) := by
  induction xs generalizing u with
  | nil => rfl
  | cons x xs ih =>
    obtain ⟨b, now⟩ := x
    simp [UDec.stream, ih]

namespace UDec.Runs

theorem append {errs₁ errs₂ : List DecError} (h₁ : Runs c u as u₁ errs₁) (h₂ : Runs c u₁ bs u₂ errs₂) :
    Runs c u (as ++ bs) u₂ (errs₁ ++ errs₂) := by
  intro tw xs hxs
  obtain ⟨ys, zs, rfl, hys, hzs⟩ := List.map_eq_append_iff.mp hxs
  rw [UDec.stream_append, h₁ tw ys hys, h₂ tw zs hzs, List.map_append]

/-- One `FEED` that gives no event. -/
theorem silent (h : ∀ (tw : Nat) (now : BitVec tw), u.feed c b now = (u₁, .none)) : Runs c u [b] u₁ [] := by
  intro tw xs hxs
  obtain ⟨⟨_, now⟩, rfl, rfl⟩ := List.map_eq_singleton_iff.mp hxs
  simp [UDec.stream, h, Event.toList]

/-- One `FEED` that raises an error. -/
theorem error {x : DecError} (h : ∀ (tw : Nat) (now : BitVec tw), u.feed c b now = (u₁, x.event)) :
    Runs c u [b] u₁ [x] := by
  intro tw xs hxs
  obtain ⟨⟨_, now⟩, rfl, rfl⟩ := List.map_eq_singleton_iff.mp hxs
  cases x <;> simp [UDec.stream, h, Event.toList, DecError.event]

/-- `START` opens an empty frame (rule R71). -/
theorem start : Runs c u [c.START] ⟨.accumulating, []⟩ [] :=
  silent fun _ _ => by simp [UDec.feed, classify_START]

theorem escape (hwf : c.WF) (ubuf : List Byte) : Runs c ⟨.accumulating, ubuf⟩ [c.ESC] ⟨.escaped, ubuf⟩ [] :=
  silent fun _ _ => by simp [UDec.feed, classify_ESC hwf]

/-- After `ESC` any byte but `START` is data (rules R78 to R80). -/
theorem unescape (hb : b ≠ c.START) (ubuf : List Byte) :
    Runs c ⟨.escaped, ubuf⟩ [b] ⟨.accumulating, ubuf ++ [xform c b]⟩ [] := by
  have hclass := classify_ne_startMarker hb
  refine silent fun _ _ => ?_
  rw [UDec.feed]
  cases hc : classify c b with
  | startMarker => exact absurd hc hclass
  | endMarker | escMarker | literal => rfl

/-- `END` on a buffer that does not give a Frame (rule R75). -/
theorem close (hwf : c.WF) {ubuf : List Byte} {x : DecError}
    (hx : ∀ (tw : Nat) (now : BitVec tw), UDec.close c now ubuf = x.event) :
    Runs c ⟨.accumulating, ubuf⟩ [c.END] ⟨.idle, []⟩ [x] :=
  error fun tw now => by simp [UDec.feed, classify_END hwf, hx]

/-- In `IDLE` everything up to the next `START` is dropped (rules R72 to R74). -/
theorem idle (hbs : c.START ∉ bs) (ubuf : List Byte) : Runs c ⟨.idle, ubuf⟩ bs ⟨.idle, ubuf⟩ [] := by
  induction bs with
  | nil =>
    intro tw xs hxs
    rw [List.map_eq_nil_iff.mp hxs]
    rfl
  | cons b bs ih =>
    rw [List.mem_cons, not_or] at hbs
    obtain ⟨hb, hbs⟩ := hbs
    have hclass := classify_ne_startMarker (Ne.symm hb)
    refine (silent fun _ _ => ?_).append (ih hbs)
    rw [UDec.feed]
    cases hc : classify c b with
    | startMarker => exact absurd hc hclass
    | endMarker | escMarker | literal => rfl

/-- What such a run says of the block's decoder. -/
theorem decodeStream {cw tw : Nat} {errs : List DecError} (h : Runs c UDec.reset bs u errs)
    {xs : List (Byte × BitVec tw)} (hxs : xs.map Prod.fst = bs) :
    ∃ d : Dec cw, decodeStream c (Dec.reset cw) xs = .ok (d, errs.map DecError.event) ∧ d.decState = u.decState := by
  obtain ⟨d, hstream, hst, -⟩ := boundedEqualsGrowable c cw tw xs
  rw [h tw xs hxs] at hstream hst
  exact ⟨d, hstream, hst⟩

end UDec.Runs

namespace UDec.Fills

variable {body body' : List Byte}

theorem append (h₁ : Fills c as body) (h₂ : Fills c bs body') : Fills c (as ++ bs) (body ++ body') := fun ubuf => by
  simpa using (h₁ ubuf).append (h₂ (ubuf ++ body))

theorem stuff (hwf : c.WF) (bs : List Byte) : Fills c (stuff c bs) bs := fun _ _ _ hxs =>
  UDec.stream_stuff hwf bs hxs

theorem literal (hb : b ∉ c.markers) : Fills c [b] [b] := fun _ =>
  .silent fun _ _ => by simp [UDec.feed, (classify_literal_iff c b).mpr hb]

theorem escaped (hwf : c.WF) (hb : b ≠ c.START) : Fills c [c.ESC, b] [xform c b] := fun ubuf =>
  (Runs.escape hwf ubuf).append (Runs.unescape hb ubuf)

/-- Delimited bytes that leave a buffer which does not give a Frame: one error, at the `END`. -/
theorem delimit (hwf : c.WF) (h : Fills c bs body) {x : DecError}
    (hx : ∀ (tw : Nat) (now : BitVec tw), UDec.close c now body = x.event) :
    Runs c u (delimit c bs) ⟨.idle, []⟩ [x] :=
  (Runs.start.append (h [])).append (.close hwf hx)

end UDec.Fills

/-- An `END` on an unfinished body closes it; what follows is dropped up to the next `START` (rule R75). -/
theorem UDec.Runs.closed_early {body rest : List Byte} (hwf : c.WF) (h : UDec.Fills c bs body) {x : DecError}
    (hx : ∀ (tw : Nat) (now : BitVec tw), UDec.close c now body = x.event) (hrest : c.START ∉ rest) :
    Runs c u (Machine.delimit c (bs ++ ([c.END] ++ rest))) ⟨.idle, []⟩ [x] := by
  have hEND : c.START ∉ [c.END] := fun hmem => hwf.1.1 (List.mem_singleton.mp hmem)
  exact (start.append ((h []).append ((close hwf hx).append (idle hrest [])))).append (idle hEND [])

/-- A second `START` forgets the bytes before it (rule R71). -/
theorem UDec.Runs.restart {body : List Byte} (hwf : c.WF) (has : Runs c ⟨.accumulating, []⟩ as u₁ [])
    (h : UDec.Fills c bs body) {x : DecError} (hx : ∀ (tw : Nat) (now : BitVec tw), UDec.close c now body = x.event) :
    Runs c u (Machine.delimit c (as ++ ([c.START] ++ bs))) ⟨.idle, []⟩ [x] :=
  (start.append (has.append (start.append (h [])))).append (.close hwf hx)

end Runs

end Sys2Proof.Machine

/-! O40, O41: closing on a body with an error in it, and single flipped bits in a frame (rules R9, R83, R88). -/

namespace Sys2Proof.Machine

/-- The error pattern `e` makes every checked body fail (rule R9). -/
def Detects (c : Cfg) (e : BitVec 32) : Prop :=
  ∀ b0 b1 b2 : Byte, ¬ c.bodyChecks (body32 b0 b1 b2 (c.CK b0 b1 b2) ^^^ e)

theorem body32_xor (b0 b1 b2 b3 e0 e1 e2 e3 : Byte) :
    body32 b0 b1 b2 b3 ^^^ body32 e0 e1 e2 e3 = body32 (b0 ^^^ e0) (b1 ^^^ e1) (b2 ^^^ e2) (b3 ^^^ e3) := by
  have hpayload : (b0 ++ b1 ++ b2) ^^^ (e0 ++ e1 ++ e2) = (b0 ^^^ e0) ++ (b1 ^^^ e1) ++ (b2 ^^^ e2) := by
    rw [BitVec.xor_append, BitVec.xor_append]
  exact BitVec.xor_append.trans (congrArg (· ++ (b3 ^^^ e3)) hpayload)

theorem bodyChecks_body32 (c : Cfg) (b0 b1 b2 ck : Byte) :
    c.bodyChecks (body32 b0 b1 b2 ck) ↔ c.CK b0 b1 b2 = ck := by
  obtain ⟨h0, h1, h2, h3⟩ := extractLsb'_body32 b0 b1 b2 ck
  rw [Cfg.bodyChecks, h0, h1, h2, h3]

/-- Closing on a body with a detected error. -/
theorem UDec.close_of_detects {c : Cfg} {e0 e1 e2 e3 : Byte} (h : Detects c (body32 e0 e1 e2 e3))
    (b0 b1 b2 : Byte) {tw : Nat} (now : BitVec tw) :
    UDec.close c now [b0 ^^^ e0, b1 ^^^ e1, b2 ^^^ e2, c.CK b0 b1 b2 ^^^ e3] = DecError.checksum.event := by
  have hck := h b0 b1 b2
  rw [body32_xor, bodyChecks_body32] at hck
  simp [UDec.close, ckFails, cksum, hck, DecError.event]

/-- One flipped bit of the body's first, second, third or fourth byte is one flipped bit of the 32 (rule R42). -/
theorem body32_twoPow (k : Fin 8) :
    body32 (BitVec.twoPow 8 k) 0#8 0#8 0#8 = BitVec.twoPow 32 (24 + k) ∧
    body32 0#8 (BitVec.twoPow 8 k) 0#8 0#8 = BitVec.twoPow 32 (16 + k) ∧
    body32 0#8 0#8 (BitVec.twoPow 8 k) 0#8 = BitVec.twoPow 32 (8 + k) ∧
    body32 0#8 0#8 0#8 (BitVec.twoPow 8 k) = BitVec.twoPow 32 k := by
  revert k; decide

theorem detects_twoPow {c : Cfg} (h : c.CkSbe) {n : Nat} (hn : n < 32) : Detects c (BitVec.twoPow 32 n) :=
  fun b0 b1 b2 => h b0 b1 b2 ⟨n, hn⟩

theorem detects_flipped_bit {c : Cfg} (h : c.CkSbe) (k : Fin 8) :
    Detects c (body32 (BitVec.twoPow 8 k) 0#8 0#8 0#8) ∧ Detects c (body32 0#8 (BitVec.twoPow 8 k) 0#8 0#8) ∧
    Detects c (body32 0#8 0#8 (BitVec.twoPow 8 k) 0#8) ∧ Detects c (body32 0#8 0#8 0#8 (BitVec.twoPow 8 k)) := by
  obtain ⟨h0, h1, h2, h3⟩ := body32_twoPow k
  rw [h0, h1, h2, h3]
  exact ⟨detects_twoPow h (by omega), detects_twoPow h (by omega), detects_twoPow h (by omega),
    detects_twoPow h (by omega)⟩

theorem UDec.close_framing {c : Cfg} {ubuf : List Byte} (h : ubuf.length ≠ 4) (tw : Nat) (now : BitVec tw) :
    UDec.close c now ubuf = DecError.framing.event := UDec.close_of_length_ne c now h

/-- Closing on a checked body with one flipped bit, under `CK_SBE` (rule R9). -/
theorem UDec.close_bit_flip {c : Cfg} (hsbe : c.CkSbe) {b0 b1 b2 w : Byte} {pre post : List Byte}
    (hbody : [b0, b1, b2, c.CK b0 b1 b2] = pre ++ w :: post) (k : Fin 8) (tw : Nat) (now : BitVec tw) :
    UDec.close c now (pre ++ (w ^^^ BitVec.twoPow 8 k) :: post) = DecError.checksum.event := by
  obtain ⟨h0, h1, h2, h3⟩ := detects_flipped_bit hsbe k
  rcases pre with _ | ⟨p0, _ | ⟨p1, _ | ⟨p2, _ | ⟨p3, pre⟩⟩⟩⟩
  · obtain ⟨rfl, rfl⟩ : b0 = w ∧ [b1, b2, c.CK b0 b1 b2] = post := by simpa using hbody
    simpa using UDec.close_of_detects h0 b0 b1 b2 now
  · obtain ⟨rfl, rfl, rfl⟩ : b0 = p0 ∧ b1 = w ∧ [b2, c.CK b0 b1 b2] = post := by simpa using hbody
    simpa using UDec.close_of_detects h1 b0 b1 b2 now
  · obtain ⟨rfl, rfl, rfl, rfl⟩ : b0 = p0 ∧ b1 = p1 ∧ b2 = w ∧ [c.CK b0 b1 b2] = post := by simpa using hbody
    simpa using UDec.close_of_detects h2 b0 b1 b2 now
  · obtain ⟨rfl, rfl, rfl, rfl, rfl⟩ : b0 = p0 ∧ b1 = p1 ∧ b2 = p2 ∧ c.CK b0 b1 b2 = w ∧ [] = post := by
      simpa using hbody
    simpa using UDec.close_of_detects h3 b0 b1 b2 now
  · have hlen := congrArg List.length hbody
    simp at hlen

/-! O40. -/

theorem xform_xor (c : Cfg) (v e : Byte) : xform c (v ^^^ e) = xform c v ^^^ e := by
  unfold xform
  ac_rfl

/-- The body of a Frame is a checked one (rules R42, R57). -/
theorem exists_checked_bodyOf (c : Cfg) (command : BitVec 4) (data : BitVec 18) :
    ∃ b0 b1 b2 : Byte, [b0, b1, b2, c.CK b0 b1 b2] = (bodyOf c command data).toList := ⟨_, _, _, rfl⟩

section Flips

variable {c : Cfg} {u : UDec} {pre post : List Byte} {b0 b1 b2 w x : Byte}

/-- A literal in the place of a plain byte fills its place in the body. -/
theorem UDec.Fills.replace_plain (hwf : c.WF) (hx : x ∉ c.markers) (pre post : List Byte) :
    UDec.Fills c (Machine.stuff c pre ++ ([x] ++ Machine.stuff c post)) (pre ++ x :: post) :=
  (stuff hwf pre).append ((literal hx).append (stuff hwf post))

/-- Any byte but `START` behind an `ESC` is destuffed into its place in the body. -/
theorem UDec.Fills.replace_data (hwf : c.WF) (hx : x ≠ c.START) (pre post : List Byte) :
    UDec.Fills c (Machine.stuff c pre ++ ([c.ESC, x] ++ Machine.stuff c post)) (pre ++ xform c x :: post) :=
  (stuff hwf pre).append ((escaped hwf hx).append (stuff hwf post))

theorem runs_flipped_plain (hwf : c.WF) (hsbe : c.CkSbe) (hbody : [b0, b1, b2, c.CK b0 b1 b2] = pre ++ w :: post)
    {k : Fin 8} (hx : w ^^^ BitVec.twoPow 8 k ∉ c.markers) :
    UDec.Runs c u (delimit c (stuff c pre ++ ([w ^^^ BitVec.twoPow 8 k] ++ stuff c post))) ⟨.idle, []⟩ [.checksum] :=
  (UDec.Fills.replace_plain hwf hx pre post).delimit hwf (UDec.close_bit_flip hsbe hbody k)

theorem runs_flipped_data (hwf : c.WF) (hsbe : c.CkSbe) (hbody : [b0, b1, b2, c.CK b0 b1 b2] = pre ++ w :: post)
    {k : Fin 8} (hx : xform c w ^^^ BitVec.twoPow 8 k ≠ c.START) :
    UDec.Runs c u (delimit c (stuff c pre ++ ([c.ESC, xform c w ^^^ BitVec.twoPow 8 k] ++ stuff c post)))
      ⟨.idle, []⟩ [.checksum] := by
  have hfills := UDec.Fills.replace_data hwf hx pre post
  rw [xform_xor, xform_xform] at hfills
  exact hfills.delimit hwf (UDec.close_bit_flip hsbe hbody k)

end Flips

/-- Settles O40: a plain byte, or the byte behind an `ESC`, stays in its place, and the body has one flipped bit. -/
theorem bodyBitFlipIsChecksumError : Obligations.BodyBitFlipIsChecksumError := by
  intro c cw tw command data i v k nows hwf hsbe hlen hpos hlast hv hesc hx
  obtain ⟨j, hj, hset⟩ : ∃ j, (stuff c (bodyOf c command data).toList)[j]? = some v ∧
      ∀ x, (frameBytes c command data).set i x = delimit c ((stuff c (bodyOf c command data).toList).set j x) := by
    rcases delimit_set_cases hv with ⟨hi, -, -⟩ | ⟨j, -, hj⟩ | ⟨hi, -, -⟩
    · omega
    · exact ⟨j, hj⟩
    · rw [frameBytes, length_delimit] at hlast
      omega
  obtain ⟨b0, b1, b2, hbody⟩ := exists_checked_bodyOf c command data
  have hruns : UDec.Runs c UDec.reset ((frameBytes c command data).set i (v ^^^ BitVec.twoPow 8 k)) ⟨.idle, []⟩
      [.checksum] := by
    rw [hset]
    cases stuffedAt_of_getElem? hj with
    | plain pre post hbs hv hset =>
      rw [hset]
      exact runs_flipped_plain hwf hsbe (hbody.trans hbs) hx
    | escape pre w post hbs hw hv hset => exact absurd hv hesc
    | data pre w post hbs hw hv hset =>
      rw [hset]
      subst hv
      exact runs_flipped_data hwf hsbe (hbody.trans hbs) fun hstart => hx (mem_markers_iff.mpr (.inl hstart))
  exact hruns.decodeStream (List.map_fst_zip (by rw [List.length_set]; exact hlen.le))

/-! O41: the flips that O40 leaves out, under the default configuration. -/

/-- On these bytes a decoder after reset reports at most one thing, and that an error. -/
def AtMostOneError (c : Cfg) (bs : List Byte) : Prop :=
  ∃ u errs, UDec.Runs c UDec.reset bs u errs ∧ errs.length ≤ 1

theorem UDec.Runs.atMostOneError {c : Cfg} {bs : List Byte} {u : UDec} {x : DecError}
    (h : UDec.Runs c UDec.reset bs u [x]) : AtMostOneError c bs := ⟨u, [x], h, le_rfl⟩

/-- A plain byte that becomes `ESC` before a marker is lost, and the marker's own `ESC` becomes data: two adjacent bytes
of the body are in error, in at most three bits. -/
theorem detects_lost_byte (k : Fin 8) :
    Detects cfg (body32 (BitVec.twoPow 8 k ^^^ 0x20#8) 0x20#8 0#8 0#8) ∧
    Detects cfg (body32 0#8 (BitVec.twoPow 8 k ^^^ 0x20#8) 0x20#8 0#8) ∧
    Detects cfg (body32 0#8 0#8 (BitVec.twoPow 8 k ^^^ 0x20#8) 0x20#8) := by
  have detects {e : BitVec 32} (hweight : 1 ≤ weight e ∧ weight e ≤ 3) : Detects cfg e := fun b0 b1 b2 =>
    defaultChecksumDetects.2.1 b0 b1 b2 e hweight.1 hweight.2
  refine ⟨detects ?_, detects ?_, detects ?_⟩ <;> revert k <;> decide

theorem UDec.close_lost_byte {b0 b1 b2 w y : Byte} {pre post : List Byte}
    (hbody : [b0, b1, b2, crc8 b0 b1 b2] = pre ++ w :: y :: post) (k : Fin 8) (tw : Nat) (now : BitVec tw) :
    UDec.close cfg now (pre ++ (w ^^^ (BitVec.twoPow 8 k ^^^ 0x20#8)) :: (y ^^^ 0x20#8) :: post) =
      DecError.checksum.event := by
  obtain ⟨h0, h1, h2⟩ := detects_lost_byte k
  rcases pre with _ | ⟨p0, _ | ⟨p1, _ | ⟨p2, pre⟩⟩⟩
  · obtain ⟨rfl, rfl, rfl⟩ : b0 = w ∧ b1 = y ∧ [b2, crc8 b0 b1 b2] = post := by simpa using hbody
    simpa using UDec.close_of_detects h0 b0 b1 b2 now
  · obtain ⟨rfl, rfl, rfl, rfl⟩ : b0 = p0 ∧ b1 = w ∧ b2 = y ∧ [crc8 b0 b1 b2] = post := by simpa using hbody
    simpa using UDec.close_of_detects h1 b0 b1 b2 now
  · obtain ⟨rfl, rfl, rfl, rfl, rfl⟩ : b0 = p0 ∧ b1 = p1 ∧ b2 = w ∧ crc8 b0 b1 b2 = y ∧ [] = post := by
      simpa using hbody
    simpa using UDec.close_of_detects h2 b0 b1 b2 now
  · have hlen : pre.length + (post.length + 1 + 1) = 1 := by simpa using congrArg List.length hbody
    omega

section DefaultFlips

variable {pre post : List Byte} {b0 b1 b2 w : Byte} {k : Fin 8}

theorem length_around (hbody : [b0, b1, b2, crc8 b0 b1 b2] = pre ++ w :: post) : pre.length + post.length = 3 := by
  have hlen : 4 = pre.length + (post.length + 1) := by simpa using congrArg List.length hbody
  omega

/-- An `END` inside the body closes too early, and what follows is dropped. -/
theorem atMostOneError_of_END (hpre : pre.length ≠ 4) {rest : List Byte} (hrest : cfg.START ∉ rest) :
    AtMostOneError cfg (delimit cfg (stuff cfg pre ++ ([cfg.END] ++ rest))) :=
  (UDec.Runs.closed_early cfg_wf (.stuff cfg_wf pre) (UDec.close_framing hpre) hrest).atMostOneError

/-- A plain byte that becomes `ESC` takes the next byte of the stream with it. -/
theorem atMostOneError_of_ESC (hbody : [b0, b1, b2, crc8 b0 b1 b2] = pre ++ w :: post)
    (hx : w ^^^ BitVec.twoPow 8 k = cfg.ESC) :
    AtMostOneError cfg (delimit cfg (stuff cfg pre ++ ([cfg.ESC] ++ stuff cfg post))) := by
  have hpre := UDec.Fills.stuff cfg_wf pre
  have hEND : cfg.END ≠ cfg.START := by decide
  have hESC : cfg.ESC ≠ cfg.START := by decide
  cases post with
  | nil =>
    have hruns := (UDec.Runs.start (u := UDec.reset)).append ((hpre []).append
      ((UDec.Runs.escape cfg_wf _).append (.unescape hEND _)))
    exact ⟨_, [], by simpa [delimit, stuff] using hruns, Nat.zero_le 1⟩
  | cons y post =>
    have hlen := length_around hbody
    rw [List.length_cons] at hlen
    have hpost := UDec.Fills.stuff cfg_wf post
    by_cases hy : isMarker cfg y = true
    · have hliteral := (classify_literal_iff cfg _).mp (classify_xform cfg_wf hy)
      have hfills := hpre.append ((UDec.Fills.escaped cfg_wf hESC).append ((UDec.Fills.literal hliteral).append hpost))
      have hclose := UDec.close_lost_byte hbody k
      rw [← BitVec.xor_assoc, hx] at hclose
      rw [stuff, if_pos hy]
      exact (hfills.delimit cfg_wf hclose).atMostOneError
    · have hstart : y ≠ cfg.START := fun hstart => hy ((isMarker_iff_eq cfg y).mpr (.inl hstart))
      have hfills := hpre.append ((UDec.Fills.escaped cfg_wf hstart).append hpost)
      rw [stuff, if_neg hy]
      exact (hfills.delimit cfg_wf (UDec.close_framing (by simp; omega))).atMostOneError

theorem atMostOneError_plain (hbody : [b0, b1, b2, crc8 b0 b1 b2] = pre ++ w :: post) :
    AtMostOneError cfg (delimit cfg (stuff cfg pre ++ ([w ^^^ BitVec.twoPow 8 k] ++ stuff cfg post))) := by
  have hlen := length_around hbody
  by_cases hx : w ^^^ BitVec.twoPow 8 k ∈ cfg.markers
  · rcases mem_markers_iff.mp hx with hx | hx | hx
    · rw [hx]
      exact (UDec.Runs.restart cfg_wf (UDec.Fills.stuff cfg_wf pre []) (.stuff cfg_wf post)
        (UDec.close_framing (by omega))).atMostOneError
    · rw [hx]
      exact atMostOneError_of_END (by omega) (START_END_not_mem_stuff cfg_wf post).1
    · rw [hx]
      exact atMostOneError_of_ESC hbody hx
  · exact (runs_flipped_plain cfg_wf defaultChecksumDetects.1 hbody hx).atMostOneError

/-- An `ESC` that becomes a literal puts a fifth byte into the body; it may also become `END`, no other marker. -/
theorem atMostOneError_escape (hbody : [b0, b1, b2, crc8 b0 b1 b2] = pre ++ w :: post)
    (hw : isMarker cfg w = true) :
    AtMostOneError cfg
      (delimit cfg (stuff cfg pre ++ ([cfg.ESC ^^^ BitVec.twoPow 8 k, xform cfg w] ++ stuff cfg post))) := by
  have hlen := length_around hbody
  have hliteral := (classify_literal_iff cfg _).mp (classify_xform cfg_wf hw)
  have honly : ∀ k : Fin 8, cfg.ESC ^^^ BitVec.twoPow 8 k ∈ cfg.markers → cfg.ESC ^^^ BitVec.twoPow 8 k = cfg.END := by
    decide
  by_cases hx : cfg.ESC ^^^ BitVec.twoPow 8 k ∈ cfg.markers
  · rw [honly k hx]
    refine atMostOneError_of_END (rest := xform cfg w :: stuff cfg post) (by omega) ?_
    rw [List.mem_cons, not_or]
    exact ⟨fun hstart => hliteral (mem_markers_iff.mpr (.inl hstart.symm)), (START_END_not_mem_stuff cfg_wf post).1⟩
  · have hfills := (UDec.Fills.stuff cfg_wf pre).append ((UDec.Fills.literal hx).append
      ((UDec.Fills.literal hliteral).append (.stuff cfg_wf post)))
    exact (hfills.delimit cfg_wf (UDec.close_framing (by simp; omega))).atMostOneError

theorem atMostOneError_data (hbody : [b0, b1, b2, crc8 b0 b1 b2] = pre ++ w :: post) :
    AtMostOneError cfg
      (delimit cfg (stuff cfg pre ++ ([cfg.ESC, xform cfg w ^^^ BitVec.twoPow 8 k] ++ stuff cfg post))) := by
  have hlen := length_around hbody
  by_cases hx : xform cfg w ^^^ BitVec.twoPow 8 k = cfg.START
  · have hopen := (UDec.Fills.stuff cfg_wf pre []).append (UDec.Runs.escape cfg_wf _)
    have hruns := UDec.Runs.restart (u := UDec.reset) cfg_wf hopen (.stuff cfg_wf post)
      (UDec.close_framing (by omega))
    rw [List.append_assoc] at hruns
    rw [hx]
    exact hruns.atMostOneError
  · exact (runs_flipped_data cfg_wf defaultChecksumDetects.1 hbody hx).atMostOneError

end DefaultFlips

/-- A flipped bit anywhere in the stuffed body. -/
theorem atMostOneError_body {bs : List Byte} {b0 b1 b2 v : Byte} {j : Nat} (hbody : [b0, b1, b2, crc8 b0 b1 b2] = bs)
    (hj : (stuff cfg bs)[j]? = some v) (k : Fin 8) :
    AtMostOneError cfg (delimit cfg ((stuff cfg bs).set j (v ^^^ BitVec.twoPow 8 k))) := by
  cases stuffedAt_of_getElem? hj with
  | plain pre post hbs hv hset =>
    rw [hset]
    exact atMostOneError_plain (hbody.trans hbs)
  | escape pre w post hbs hw hv hset =>
    rw [hset, hv]
    exact atMostOneError_escape (hbody.trans hbs) hw
  | data pre w post hbs hw hv hset =>
    rw [hset, hv]
    exact atMostOneError_data (hbody.trans hbs)

theorem ne_xor_twoPow (v : Byte) (k : Fin 8) : v ^^^ BitVec.twoPow 8 k ≠ v := by
  have hbit : ∀ k : Fin 8, BitVec.twoPow 8 k ≠ 0#8 := by decide
  exact fun h => hbit k (by simpa using h)

/-- Without its `START` a frame is not seen. -/
theorem atMostOneError_without_START {x : Byte} (hx : x ≠ cfg.START) (body : List Byte) :
    AtMostOneError cfg (x :: (stuff cfg body ++ [cfg.END])) := by
  have hunseen : cfg.START ∉ x :: (stuff cfg body ++ [cfg.END]) := by
    simp [hx.symm, (START_END_not_mem_stuff cfg_wf body).1]
  exact ⟨UDec.reset, [], UDec.Runs.idle hunseen [], Nat.zero_le 1⟩

/-- Without its `END` a frame is not closed. -/
theorem atMostOneError_without_END {x : Byte} (hx : x ≠ cfg.END) (body : List Byte) :
    AtMostOneError cfg (cfg.START :: (stuff cfg body ++ [x])) := by
  have hopen := (UDec.Runs.start (u := UDec.reset)).append (UDec.Fills.stuff cfg_wf body [])
  have hlast : ∃ u, UDec.Runs cfg ⟨.accumulating, body⟩ [x] u [] := by
    by_cases hmark : x ∈ cfg.markers
    · rcases mem_markers_iff.mp hmark with rfl | rfl | rfl
      · exact ⟨_, .start⟩
      · exact absurd rfl hx
      · exact ⟨_, .escape cfg_wf body⟩
    · exact ⟨_, UDec.Fills.literal hmark body⟩
  obtain ⟨u, hlast⟩ := hlast
  exact ⟨u, [], hopen.append hlast, Nat.zero_le 1⟩

/-- Settles O41: without its `START` the frame is not seen, without its `END` it is not closed, and in between it is one
of the flips above. -/
theorem singleBitFlipNeverAFrame : Obligations.SingleBitFlipNeverAFrame := by
  intro command data i v k nows hlen hv
  have hflip := ne_xor_twoPow v k
  have hone : AtMostOneError cfg ((frameBytes cfg command data).set i (v ^^^ BitVec.twoPow 8 k)) := by
    rw [frameBytes]
    rcases delimit_set_cases hv with ⟨-, rfl, hset⟩ | ⟨j, -, hj, hset⟩ | ⟨-, rfl, hset⟩
    · rw [hset]
      exact atMostOneError_without_START hflip _
    · obtain ⟨b0, b1, b2, hbody⟩ := exists_checked_bodyOf cfg command data
      rw [hset]
      exact atMostOneError_body hbody hj k
    · rw [hset]
      exact atMostOneError_without_END hflip _
  obtain ⟨u, errs, hruns, hlength⟩ := hone
  obtain ⟨d, hstream, -⟩ := hruns.decodeStream (List.map_fst_zip (l₂ := nows) (by rw [List.length_set]; exact hlen.le))
  refine ⟨d, _, hstream, by rwa [List.length_map], fun f hf => ?_⟩
  obtain ⟨x, -, hx⟩ := List.mem_map.mp hf
  cases x <;> cases hx

end Sys2Proof.Machine

/-! O56, O2, O57: a request behind a busy encoder, `RESET`, and the time before it (rules R125, R127, R130). -/

namespace Sys2Proof.Machine

/-- An offer whose port is not ready keeps its place at the head, whatever is taken from behind it. -/
theorem firstReady_keeps_waiting_head {busy : Bool} {w v : OpWord} {pend rest : List OpWord}
    (hw : laneReady busy w.lane = false) (h : firstReady busy (w :: pend) = some (v, rest)) :
    ∃ rest', rest = w :: rest' := by
  obtain ⟨hv, waiting, later, hpend, rfl, -⟩ := firstReady_some h
  cases waiting with
  | nil =>
    obtain ⟨rfl, -⟩ := List.cons.inj hpend
    exact absurd hv (by simp [hw])
  | cons w' waiting =>
    obtain ⟨rfl, -⟩ := List.cons.inj hpend
    exact ⟨_, rfl⟩

/-- A step keeps an offer at the head whose port is not ready; the pin's `RESET` keeps every offer (log entry 10). -/
theorem step_keeps_waiting_head {s t : State} {w : OpWord} {rest : List OpWord}
    (hw : laneReady s.enc.encBusy w.lane = false) (hpend : s.env.pend = w :: rest) (h : step s = .next t) :
    ∃ rest', t.env.pend = w :: rest' := by
  rcases step_cases h with ⟨-, hex⟩ | ⟨-, -, rfl⟩ | ⟨-, v, others, i, hready, -, -, hex⟩
  · rw [(exec_effect hex).env]
    exact ⟨rest, hpend⟩
  · exact ⟨rest, hpend⟩
  · rw [(exec_effect hex).env]
    exact firstReady_keeps_waiting_head hw (hpend ▸ hready)

/-- With the pin low and no offered port ready the step is the quiet one (log entry 18). -/
theorem step_of_none_ready {s : State} (hrst : s.env.rst = false)
    (hnone : ∀ w ∈ s.env.pend, laneReady s.enc.encBusy w.lane = false) : step s = .next s.quiet := by
  simp [step, fetch, hrst, firstReady_none.mpr hnone]

/-- Settles O56: a busy encoder's request port is not ready, so the request at the head keeps its place. -/
theorem requestsWaitWhileBusy : Obligations.RequestsWaitWhileBusy :=
  ⟨fun _ _ _ _ hbusy _ hlane hpend h =>
      step_keeps_waiting_head (by simp [hlane, hbusy, laneReady]) hpend h,
    fun _ hrst hnone => step_of_none_ready hrst hnone⟩

theorem exec_reset (s : State) : exec .reset s = .next s.applyReset := rfl

/-- With the pin high a step is `RESET`, the pin lowered, the offers left where they are (log entry 10). -/
theorem step_of_rst {s : State} (hrst : s.env.rst = true) :
    step s = .next (State.applyReset { s with env := { s.env with rst := false } }) := by
  simp [step, fetch, hrst, exec_reset]

/-- Settles O2: what `RESET` writes does not depend on the state, and the pin leads to it. -/
theorem resetFromAnyState : Obligations.ResetFromAnyState :=
  ⟨fun s => ⟨_, exec_reset s, by simp⟩, fun _ hrst => ⟨_, step_of_rst hrst, by simp⟩⟩

/-- Before the first `RESET` a step is the quiet one or `RESET`, by the pin or as an offered operation. -/
theorem step_before_first_reset {s t : State} (hcold : s.hasReset = false) (h : step s = .next t) :
    t = s.quiet ∨ ∃ env, t = State.applyReset { s with env := env } := by
  rcases step_cases h with ⟨-, hex⟩ | ⟨-, -, rfl⟩ | ⟨-, w, rest, i, -, -, hwarm | rfl, hex⟩
  · exact .inr ⟨_, (Host.Outcome.next.inj hex).symm⟩
  · exact .inl rfl
  · exact absurd hwarm (by simp [hcold])
  · exact .inr ⟨_, (Host.Outcome.next.inj hex).symm⟩

/-- Settles O57: the step is the quiet one, or it leaves what `RESET` writes. -/
theorem nothingRunsBeforeReset : Obligations.NothingRunsBeforeReset := by
  intro s t hcold h
  rcases step_before_first_reset hcold h with rfl | ⟨env, rfl⟩
  · exact .inl rfl
  · exact .inr (by simp)

end Sys2Proof.Machine
